-- ==== Sys2Proof/Word.lean ====
section
/-!
DEFINITION. The machine's word types (spec/10_state.md, spec/30_encoding.md).
-/

namespace Sys2Proof

/-- A byte: a V register, a timer, a memory cell, an immediate `nn` (R20, R30, R50, R73). -/
abbrev Byte := BitVec 8

/-- A 16-bit value: `pc`, `I`, a stack slot, an instruction word (R22, R23, R27, R70). -/
abbrev Word := BitVec 16

/-- A 12-bit immediate `nnn` (R72). -/
abbrev Addr12 := BitVec 12

/-- A 4-bit immediate `n` (R72). -/
abbrev Nibble := BitVec 4

/-- The number of a V register, 0..15 (R20, R72); also a key index, 0..15 (R29). -/
abbrev Reg := Fin 16

/-- `V[0xF]`, the flag register (R21). -/
abbrev VF : Reg := 15

end Sys2Proof
end

