-- ==== Sys2Proof/Syntax.lean ====
section
/-!
DEFINITION. The instructions: one constructor for each of the 33 rows of spec/opcode_table.json (R75), in the table's order,
under the spec's own mnemonics (R81). Operands stand in field order x, y, then the immediate (R72).
-/

namespace Sys2Proof

/-- The 33 instructions of R75. -/
inductive Instr where
  /-- 00E0 CLS (R170). -/
  | cls
  /-- 00EE RET (R100). -/
  | ret
  /-- 1nnn JP (R101). -/
  | jp (nnn : Addr12)
  /-- 2nnn CALL (R102). -/
  | call (nnn : Addr12)
  /-- 3xnn SE_IMM (R104). -/
  | seImm (x : Reg) (nn : Byte)
  /-- 4xnn SNE_IMM (R105). -/
  | sneImm (x : Reg) (nn : Byte)
  /-- 5xy0 SE_REG (R106). -/
  | seReg (x y : Reg)
  /-- 6xnn LD_IMM (R120). -/
  | ldImm (x : Reg) (nn : Byte)
  /-- 7xnn ADD_IMM (R121). -/
  | addImm (x : Reg) (nn : Byte)
  /-- 8xy0 LD_REG (R122). -/
  | ldReg (x y : Reg)
  /-- 8xy1 OR (R123). -/
  | or (x y : Reg)
  /-- 8xy2 AND (R124). -/
  | and (x y : Reg)
  /-- 8xy3 XOR (R125). -/
  | xor (x y : Reg)
  /-- 8xy4 ADD_REG (R126). -/
  | addReg (x y : Reg)
  /-- 8xy5 SUB (R127). -/
  | sub (x y : Reg)
  /-- 8xy6 SHR (R128); `y` is decoded and ignored (R76). -/
  | shr (x y : Reg)
  /-- 8xy7 SUBN (R129). -/
  | subn (x y : Reg)
  /-- 8xyE SHL (R130); `y` is decoded and ignored (R76). -/
  | shl (x y : Reg)
  /-- 9xy0 SNE_REG (R107). -/
  | sneReg (x y : Reg)
  /-- Annn LD_I (R150). -/
  | ldI (nnn : Addr12)
  /-- Bnnn JP_V0 (R103). -/
  | jpV0 (nnn : Addr12)
  /-- Cxnn RND (R131). -/
  | rnd (x : Reg) (nn : Byte)
  /-- Dxyn DRW (R171). -/
  | drw (x y : Reg) (n : Nibble)
  /-- Ex9E SKP (R186). -/
  | skp (x : Reg)
  /-- ExA1 SKNP (R187). -/
  | sknp (x : Reg)
  /-- Fx07 LD_VX_DT (R200). -/
  | ldVxDt (x : Reg)
  /-- Fx0A LD_VX_KEY (R189). -/
  | ldVxKey (x : Reg)
  /-- Fx15 LD_DT_VX (R201). -/
  | ldDtVx (x : Reg)
  /-- Fx18 LD_ST_VX (R202). -/
  | ldStVx (x : Reg)
  /-- Fx1E ADD_I (R151). -/
  | addI (x : Reg)
  /-- Fx33 BCD (R152). -/
  | bcd (x : Reg)
  /-- Fx55 STM (R153). -/
  | stm (x : Reg)
  /-- Fx65 LDM (R154). -/
  | ldm (x : Reg)
deriving DecidableEq, Repr

end Sys2Proof
end

