-- ==== Sys2Proof/WellFormed.lean ====
section
/-!
DEFINITION. Well-formedness. An operand's bound is a fact about one field, and the field types of Instr carry it (a register
number is below 16, `nn` below 256, `nnn` below 4096, `n` below 16), so every term of Instr is an instruction and none of
them needs a check of its own. What can be ill formed is the encoding table: a row may fix a bit it does not cover, or share
a word with another row (R71, R74).
-/

namespace Sys2Proof

/-- One row of the encoding table of R75: a word belongs to it when `(w AND mask) = pattern` (R74). -/
structure OpcodeRow where
  mnemonic : String
  mask : Word
  pattern : Word
deriving DecidableEq, Repr

/-- The word lies in the row's match set (R74). -/
def OpcodeRow.matches (r : OpcodeRow) (w : Word) : Bool := w &&& r.mask == r.pattern

/-- A row's pattern has no bit outside its mask: a bit the pattern does not fix is a field's (R71). -/
def OpcodeRow.wellFormed (r : OpcodeRow) : Bool := r.pattern &&& r.mask == r.pattern

/-- No word lies in both rows: they disagree on a bit both of them fix (R74, "pairwise disjoint"). -/
def OpcodeRow.disjoint (r q : OpcodeRow) : Bool := r.pattern &&& q.mask != q.pattern &&& r.mask

/-- Every row is well formed and any two are disjoint, in their words and in their mnemonics (R74, R81). -/
def opcodeTableWellFormed : List OpcodeRow → Bool
  | [] => true
  | r :: rest =>
    r.wellFormed && rest.all (fun q => r.disjoint q && r.mnemonic != q.mnemonic) && opcodeTableWellFormed rest

end Sys2Proof
end

