-- ==== Sys2Proof/Decode.lean ====
section
/-!
DEFINITION. Bit fields and byte order (R10, R52, R72), the decoder (R74), the encoder (R71, R75) and the opcode table (R75).
-/

namespace Sys2Proof

/-! ### Bit fields and byte order -/

/-- `v[hi:lo]`: the unsigned field of `v` from bit `hi` down to bit `lo` inclusive (R10). -/
def field (w : Word) (hi lo : Nat) : Nat := w.toNat / 2 ^ lo % 2 ^ (hi - lo + 1)

/-- `x = w[11:8]`, a register number (R72). -/
def fieldX (w : Word) : Reg := Fin.ofNat 16 (field w 11 8)

/-- `y = w[7:4]`, a register number (R72). -/
def fieldY (w : Word) : Reg := Fin.ofNat 16 (field w 7 4)

/-- `nnn = w[11:0]` (R72). -/
def fieldNnn (w : Word) : Addr12 := BitVec.ofNat 12 (field w 11 0)

/-- `nn = w[7:0]` (R72). -/
def fieldNn (w : Word) : Byte := BitVec.ofNat 8 (field w 7 0)

/-- `n = w[3:0]` (R72). -/
def fieldN (w : Word) : Nibble := BitVec.ofNat 4 (field w 3 0)

/-- The word of two bytes, the first (lower address) in bits 15:8 (R52, big-endian). -/
def wordOfBytes (first second : Byte) : Word := BitVec.ofNat 16 (first.toNat * 256 + second.toNat)

/-- The byte of a word that stands at the lower address: bits 15:8 (R52, R70). -/
def highByte (w : Word) : Byte := BitVec.ofNat 8 (field w 15 8)

/-- The byte of a word that stands at the higher address: bits 7:0 (R52, R70). -/
def lowByte (w : Word) : Byte := BitVec.ofNat 8 (field w 7 0)

/-! ### The decoder -/

/-- Why a sequence of bytes is no instruction. -/
inductive DecodeError where
  /-- A word outside the 33 rows (R79): the machine raises UnimplementedOpcode. -/
  | illegal (w : Word)
  /-- Fewer than the two bytes every instruction has (R70). -/
  | tooShort
deriving DecidableEq, Repr

/-- Opcode nibble 0x8: `w[3:0]` selects the operation (R74). -/
def decode8 (w : Word) : Except DecodeError Instr :=
  match field w 3 0 with
  | 0x0 => .ok (.ldReg (fieldX w) (fieldY w))
  | 0x1 => .ok (.or (fieldX w) (fieldY w))
  | 0x2 => .ok (.and (fieldX w) (fieldY w))
  | 0x3 => .ok (.xor (fieldX w) (fieldY w))
  | 0x4 => .ok (.addReg (fieldX w) (fieldY w))
  | 0x5 => .ok (.sub (fieldX w) (fieldY w))
  | 0x6 => .ok (.shr (fieldX w) (fieldY w))
  | 0x7 => .ok (.subn (fieldX w) (fieldY w))
  | 0xE => .ok (.shl (fieldX w) (fieldY w))
  | _ => .error (.illegal w)

/-- Opcode nibble 0xE: `w[7:0]` selects the operation (R74). -/
def decodeE (w : Word) : Except DecodeError Instr :=
  if field w 7 0 = 0x9E then .ok (.skp (fieldX w))
  else if field w 7 0 = 0xA1 then .ok (.sknp (fieldX w))
  else .error (.illegal w)

/-- Opcode nibble 0xF: `w[7:0]` selects the operation (R74). -/
def decodeF (w : Word) : Except DecodeError Instr :=
  if field w 7 0 = 0x07 then .ok (.ldVxDt (fieldX w))
  else if field w 7 0 = 0x0A then .ok (.ldVxKey (fieldX w))
  else if field w 7 0 = 0x15 then .ok (.ldDtVx (fieldX w))
  else if field w 7 0 = 0x18 then .ok (.ldStVx (fieldX w))
  else if field w 7 0 = 0x1E then .ok (.addI (fieldX w))
  else if field w 7 0 = 0x33 then .ok (.bcd (fieldX w))
  else if field w 7 0 = 0x55 then .ok (.stm (fieldX w))
  else if field w 7 0 = 0x65 then .ok (.ldm (fieldX w))
  else .error (.illegal w)

/-- The decoder: a total function from the 65536 words to the 33 instructions or `illegal` (R74, R79). It dispatches on
`w[15:12]`; the last arm, no 4-bit value, answers `illegal` too. -/
def decode (w : Word) : Except DecodeError Instr :=
  match field w 15 12 with
  | 0x0 => if w = 0x00E0#16 then .ok .cls else if w = 0x00EE#16 then .ok .ret else .error (.illegal w)
  | 0x1 => .ok (.jp (fieldNnn w))
  | 0x2 => .ok (.call (fieldNnn w))
  | 0x3 => .ok (.seImm (fieldX w) (fieldNn w))
  | 0x4 => .ok (.sneImm (fieldX w) (fieldNn w))
  | 0x5 => if field w 3 0 = 0 then .ok (.seReg (fieldX w) (fieldY w)) else .error (.illegal w)
  | 0x6 => .ok (.ldImm (fieldX w) (fieldNn w))
  | 0x7 => .ok (.addImm (fieldX w) (fieldNn w))
  | 0x8 => decode8 w
  | 0x9 => if field w 3 0 = 0 then .ok (.sneReg (fieldX w) (fieldY w)) else .error (.illegal w)
  | 0xA => .ok (.ldI (fieldNnn w))
  | 0xB => .ok (.jpV0 (fieldNnn w))
  | 0xC => .ok (.rnd (fieldX w) (fieldNn w))
  | 0xD => .ok (.drw (fieldX w) (fieldY w) (fieldN w))
  | 0xE => decodeE w
  | 0xF => decodeF w
  | _ => .error (.illegal w)

/-- Decoding from a list of bytes, the first at the lowest address: the instruction and the bytes after it, or why there is
none. Total on any bytes (R52, R70, R74). -/
def decodeBytes : List Byte → Except DecodeError (Instr × List Byte)
  | first :: second :: rest =>
    match decode (wordOfBytes first second) with
    | .ok i => .ok (i, rest)
    | .error e => .error e
  | _ => .error .tooShort

/-! ### The encoder -/

/-- Format A: opcode nibble and `nnn` (R71). -/
def encodeA (op : Nat) (nnn : Addr12) : Word := BitVec.ofNat 16 (op * 0x1000 + nnn.toNat)

/-- Format XI: opcode nibble, `x` and `nn` (R71). -/
def encodeXI (op : Nat) (x : Reg) (nn : Byte) : Word := BitVec.ofNat 16 (op * 0x1000 + x.val * 0x100 + nn.toNat)

/-- Formats XY and XYN: opcode nibble, `x`, `y` and the function or `n` (R71). -/
def encodeXYN (op : Nat) (x y : Reg) (low : Nat) : Word :=
  BitVec.ofNat 16 (op * 0x1000 + x.val * 0x100 + y.val * 0x10 + low)

/-- Format XF: opcode nibble, `x` and the 8-bit function (R71). -/
def encodeXF (op : Nat) (x : Reg) (func : Nat) : Word := BitVec.ofNat 16 (op * 0x1000 + x.val * 0x100 + func)

/-- The word of an instruction, from the table of R75. -/
def encode : Instr → Word
  | .cls => 0x00E0#16
  | .ret => 0x00EE#16
  | .jp nnn => encodeA 0x1 nnn
  | .call nnn => encodeA 0x2 nnn
  | .seImm x nn => encodeXI 0x3 x nn
  | .sneImm x nn => encodeXI 0x4 x nn
  | .seReg x y => encodeXYN 0x5 x y 0x0
  | .ldImm x nn => encodeXI 0x6 x nn
  | .addImm x nn => encodeXI 0x7 x nn
  | .ldReg x y => encodeXYN 0x8 x y 0x0
  | .or x y => encodeXYN 0x8 x y 0x1
  | .and x y => encodeXYN 0x8 x y 0x2
  | .xor x y => encodeXYN 0x8 x y 0x3
  | .addReg x y => encodeXYN 0x8 x y 0x4
  | .sub x y => encodeXYN 0x8 x y 0x5
  | .shr x y => encodeXYN 0x8 x y 0x6
  | .subn x y => encodeXYN 0x8 x y 0x7
  | .shl x y => encodeXYN 0x8 x y 0xE
  | .sneReg x y => encodeXYN 0x9 x y 0x0
  | .ldI nnn => encodeA 0xA nnn
  | .jpV0 nnn => encodeA 0xB nnn
  | .rnd x nn => encodeXI 0xC x nn
  | .drw x y n => encodeXYN 0xD x y n.toNat
  | .skp x => encodeXF 0xE x 0x9E
  | .sknp x => encodeXF 0xE x 0xA1
  | .ldVxDt x => encodeXF 0xF x 0x07
  | .ldVxKey x => encodeXF 0xF x 0x0A
  | .ldDtVx x => encodeXF 0xF x 0x15
  | .ldStVx x => encodeXF 0xF x 0x18
  | .addI x => encodeXF 0xF x 0x1E
  | .bcd x => encodeXF 0xF x 0x33
  | .stm x => encodeXF 0xF x 0x55
  | .ldm x => encodeXF 0xF x 0x65

/-- The bytes of an instruction in the order they stand in memory (R52, R81). -/
def encodeBytes (i : Instr) : List Byte := [highByte (encode i), lowByte (encode i)]

/-! ### The opcode table -/

/-- The row of R75 an instruction belongs to: mnemonic, mask, match. -/
def Instr.row : Instr → OpcodeRow
  | .cls => ⟨"CLS", 0xFFFF#16, 0x00E0#16⟩
  | .ret => ⟨"RET", 0xFFFF#16, 0x00EE#16⟩
  | .jp _ => ⟨"JP", 0xF000#16, 0x1000#16⟩
  | .call _ => ⟨"CALL", 0xF000#16, 0x2000#16⟩
  | .seImm _ _ => ⟨"SE_IMM", 0xF000#16, 0x3000#16⟩
  | .sneImm _ _ => ⟨"SNE_IMM", 0xF000#16, 0x4000#16⟩
  | .seReg _ _ => ⟨"SE_REG", 0xF00F#16, 0x5000#16⟩
  | .ldImm _ _ => ⟨"LD_IMM", 0xF000#16, 0x6000#16⟩
  | .addImm _ _ => ⟨"ADD_IMM", 0xF000#16, 0x7000#16⟩
  | .ldReg _ _ => ⟨"LD_REG", 0xF00F#16, 0x8000#16⟩
  | .or _ _ => ⟨"OR", 0xF00F#16, 0x8001#16⟩
  | .and _ _ => ⟨"AND", 0xF00F#16, 0x8002#16⟩
  | .xor _ _ => ⟨"XOR", 0xF00F#16, 0x8003#16⟩
  | .addReg _ _ => ⟨"ADD_REG", 0xF00F#16, 0x8004#16⟩
  | .sub _ _ => ⟨"SUB", 0xF00F#16, 0x8005#16⟩
  | .shr _ _ => ⟨"SHR", 0xF00F#16, 0x8006#16⟩
  | .subn _ _ => ⟨"SUBN", 0xF00F#16, 0x8007#16⟩
  | .shl _ _ => ⟨"SHL", 0xF00F#16, 0x800E#16⟩
  | .sneReg _ _ => ⟨"SNE_REG", 0xF00F#16, 0x9000#16⟩
  | .ldI _ => ⟨"LD_I", 0xF000#16, 0xA000#16⟩
  | .jpV0 _ => ⟨"JP_V0", 0xF000#16, 0xB000#16⟩
  | .rnd _ _ => ⟨"RND", 0xF000#16, 0xC000#16⟩
  | .drw _ _ _ => ⟨"DRW", 0xF000#16, 0xD000#16⟩
  | .skp _ => ⟨"SKP", 0xF0FF#16, 0xE09E#16⟩
  | .sknp _ => ⟨"SKNP", 0xF0FF#16, 0xE0A1#16⟩
  | .ldVxDt _ => ⟨"LD_VX_DT", 0xF0FF#16, 0xF007#16⟩
  | .ldVxKey _ => ⟨"LD_VX_KEY", 0xF0FF#16, 0xF00A#16⟩
  | .ldDtVx _ => ⟨"LD_DT_VX", 0xF0FF#16, 0xF015#16⟩
  | .ldStVx _ => ⟨"LD_ST_VX", 0xF0FF#16, 0xF018#16⟩
  | .addI _ => ⟨"ADD_I", 0xF0FF#16, 0xF01E#16⟩
  | .bcd _ => ⟨"BCD", 0xF0FF#16, 0xF033#16⟩
  | .stm _ => ⟨"STM", 0xF0FF#16, 0xF055#16⟩
  | .ldm _ => ⟨"LDM", 0xF0FF#16, 0xF065#16⟩

/-- One instruction of each row, every operand 0, in the table's order (R75). -/
def instrOfEachRow : List Instr :=
  [.cls, .ret, .jp 0, .call 0, .seImm 0 0, .sneImm 0 0, .seReg 0 0, .ldImm 0 0, .addImm 0 0, .ldReg 0 0, .or 0 0] ++
  [.and 0 0, .xor 0 0, .addReg 0 0, .sub 0 0, .shr 0 0, .subn 0 0, .shl 0 0, .sneReg 0 0, .ldI 0, .jpV0 0, .rnd 0 0] ++
  [.drw 0 0 0, .skp 0, .sknp 0, .ldVxDt 0, .ldVxKey 0, .ldDtVx 0, .ldStVx 0, .addI 0, .bcd 0, .stm 0, .ldm 0]

/-- The 33 rows of R75. -/
def opcodeTable : List OpcodeRow := instrOfEachRow.map Instr.row

/-! ### The host's numbering of words -/

/-- The 16-bit word the host's `(nbits, w)` stands for: the bits above `nbits` are 0, and an instruction has 16 (R70). -/
def tableWord (nbits w : Nat) : Word := BitVec.ofNat 16 (w % 2 ^ nbits)

/-- What the decoder reads from that word laid out as the hardware stores it, high byte first (R52). -/
def decodeTableWord (nbits w : Nat) : Option Instr :=
  match decodeBytes [highByte (tableWord nbits w), lowByte (tableWord nbits w)] with
  | .ok (i, _) => some i
  | .error _ => none

end Sys2Proof
end

