-- ==== Sys2Proof/Config.lean ====
section
/-!
DEFINITION. What an implementation fixes: the sizes the source fixes (R5), the three parameters it leaves open (R6),
what the host hands over, and the free
values: the byte on the random input (R131, U1) and the host's events (R9).
-/

namespace Sys2Proof

/-- `MEM_SIZE`: addresses 0x000 to 0xFFF (R5, R50). -/
abbrev memSize : Nat := 4096

/-- `LOAD_BASE`, which is also the reset value of `pc` (R5, R51). -/
abbrev loadBase : Nat := 0x200

/-- `MAX_PROG` = MEM_SIZE - LOAD_BASE (R5, R61). -/
abbrev maxProg : Nat := memSize - loadBase

/-- The three parameters of R6. They are fixed for a machine; State carries them as plain data, so that a claim about every
state is a claim about every value of them (D5, D9, D10 ask for that). DESIGN CHOICE, log entry 1. -/
structure Config where
  /-- `STACK_DEPTH` (R6, R27, D5). -/
  stackDepth : Nat
  /-- `FX1E_CLEARS_VF` (R6, R151, D9). -/
  fx1eClearsVf : Bool
  /-- `SUBN_VF_ON_EQUAL` (R6, R129, D10); `true` stands for 1. -/
  subnVfOnEqual : Bool
deriving DecidableEq, Repr

/-- The byte on the random input at the `k`-th Cxnn for which the host names none: a FREE VALUE, any byte, under no law
(R131, U1, D19). It has no body, so nothing can be proved about its value. Log entry 3. -/
opaque Config.freeRnd : Nat → Byte

/-- The five events a host can present (R8). -/
inductive HostEvent where
  /-- INIT (R250). -/
  | init
  /-- LOAD(bytes) (R60). -/
  | load (bytes : List Byte)
  /-- SETKEY(k, level) (R185). -/
  | setKey (k : Reg) (level : Bool)
  /-- CYCLE(rnd) (R90); `none` where the host names no byte, and a Cxnn takes a free value (log entry 3). -/
  | cycle (rnd : Option Byte)
  /-- TICK (R203). -/
  | tick
deriving DecidableEq, Repr, Inhabited

/-- The `k`-th event of the `stream`-th sequence of events a host may present: a FREE VALUE, so that a stream is any infinite
sequence of events, under no law (R9). It has no body, so nothing can be proved about its values. Log entry 16. -/
opaque Config.freeEvent (stream k : Nat) : HostEvent

end Sys2Proof
end

