-- ==== Sys2Proof/Machine/Defaults.lean ====
section
/-!
DEFINITION. The default values of the three parameters of R6.
-/

namespace Sys2Proof.Machine

/-- STACK_DEPTH = 16, FX1E_CLEARS_VF = true, SUBN_VF_ON_EQUAL = 1 (R6; D5, D9, D10: the spec's own defaults). -/
def defaultConfig : Config := { stackDepth := 16, fx1eClearsVf := true, subnVfOnEqual := true }

end Sys2Proof.Machine
end

