-- ==== Sys2Proof/Machine/State.lean ====
section
/-!
DEFINITION. The state of the machine (spec/10_state.md) as plain data, the reasons a step can stop, and the reset state.
-/

namespace Sys2Proof.Machine

/-- Why a step stops with a fault: never. Every event has a defined result in every state after INIT (spec/93, end of Part 1),
and a fault of the spec is a next state with the record FAULT written (R222), so this type has no constructor. Log entry 6. -/
inductive Fault where
deriving DecidableEq, Repr

/-- Why a step is refused. -/
inductive Refusal where
  /-- An instruction without a meaning in this model, by its mnemonic. No arm of exec answers it: all 33 have their meaning.
  It would be raised by exec; safe. -/
  | notModelled (mnemonic : String)
deriving DecidableEq, Repr

/-- The causes FAULT.cause can hold (R221). RomTooLarge is a result of LOAD and never stands here (R233). -/
inductive FaultCause where
  | noFault
  | stackUnderflow
  | stackOverflow
  | unimplementedOpcode
  | outOfBounds
  | badKeyIndex
deriving DecidableEq, Repr

/-- The fault record FAULT (R32). -/
structure FaultRecord where
  cause : FaultCause
  pc : Word
  opcode : Word
  addr : Word
deriving DecidableEq, Repr

/-- FAULT with all fields 0 (R40). -/
def FaultRecord.none : FaultRecord := { cause := .noFault, pc := 0, opcode := 0, addr := 0 }

/-- The result of the last LOAD, as the host got it (R60, R61, R233). -/
inductive LoadResult where
  | noLoad
  | accepted
  | romTooLarge
deriving DecidableEq, Repr

/-- Where the host's events come from once those it has lined up are used. Log entries 2 and 16. -/
inductive EventSource where
  /-- These events over and over, for ever. -/
  | repeating (first : HostEvent) (others : List HostEvent)
  /-- Any infinite sequence: the free values `Config.freeEvent stream k`, `Config.freeEvent stream (k + 1)`, … -/
  | free (stream k : Nat)
deriving DecidableEq, Repr

/-- The events the host will present (R9): any finite number lined up, the next one first, then a source without end. -/
structure EventQueue where
  pending : List HostEvent
  later : EventSource
deriving DecidableEq, Repr

/-- CYCLE for ever, no byte named. DESIGN CHOICE, log entry 2. -/
def EventQueue.cycles : EventQueue := { pending := [], later := .repeating (.cycle .none) [] }

/-- The host's side of the core's ports: the model's own fields, no state of the core (R13). Log entries 2 to 4. -/
structure HostSide where
  /-- The events the host will present (R9). -/
  events : EventQueue
  /-- The byte on the rnd input for this cycle; `none` where the host names none and it is a free value (R8, R131). -/
  rndIn : Option Byte
  /-- How many random bytes Cxnn has taken: the index of the next free value. -/
  rndCount : Nat
  /-- The result of the last LOAD (R233). -/
  loadResult : LoadResult
deriving DecidableEq, Repr

/-- MEM as (address, byte) pairs in one canonical form; see Memory.wf (R28, R50). -/
abbrev Memory := List Host.Cell

/-- FB[row][col]: 32 rows of 64 pixels (R28). -/
abbrev FrameBuffer := Vector (Vector Bool 64) 32

/-- Everything the spec gives the machine (R20 to R34), its parameters (R6), and the host's side. -/
structure State where
  /-- V[0]..V[15] (R20); V[15] is the flag (R21). -/
  v : Vector Byte 16
  /-- I (R22). -/
  iReg : Word
  /-- pc (R23). -/
  pc : Word
  /-- SP, the number of live stack entries (R27). -/
  sp : Nat
  /-- STACK[0]..STACK[STACK_DEPTH - 1], one element a slot (R27). -/
  stack : List Word
  /-- MEM (R28, R50). -/
  mem : Memory
  /-- FB (R28). -/
  fb : FrameBuffer
  /-- KEYS[0]..KEYS[15] (R29). -/
  keys : Vector Bool 16
  /-- DT (R30). -/
  dt : Byte
  /-- ST (R30). -/
  st : Byte
  /-- BEEP (R31). -/
  beep : Bool
  /-- FAULT (R32). -/
  fault : FaultRecord
  /-- KW (R33). -/
  kw : Option Reg
  /-- The parameters of R6; no event changes them. -/
  config : Config
  /-- The host's side of the ports. -/
  host : HostSide
deriving DecidableEq, Repr

/-- The state INIT leaves in a machine with the given parameters and host's side (R40, R250). -/
def State.resetWith (c : Config) (h : HostSide) : State where
  v := Vector.replicate 16 0
  iReg := 0
  pc := 0x200
  sp := 0
  stack := List.replicate c.stackDepth 0
  mem := []
  fb := Vector.replicate 32 (Vector.replicate 64 false)
  keys := Vector.replicate 16 false
  dt := 0
  st := 0
  beep := false
  fault := .none
  kw := .none
  config := c
  host := h

/-- The host's side before any event. DESIGN CHOICE, log entries 2 to 4. -/
def HostSide.start : HostSide := { events := .cycles, rndIn := .none, rndCount := 0, loadResult := .noLoad }

/-- The machine right after INIT, with the default parameters (R40, R6, D24). -/
def State.reset : State := State.resetWith defaultConfig .start

end Sys2Proof.Machine
end

