-- ==== Sys2Proof/Machine/Ops.lean ====
section
/-!
DEFINITION. The named operations over memory, registers and the other state, raising a fault, and the way out of one.
-/

namespace Sys2Proof.Machine

/-! ### Memory (spec/20_memory.md) -/

/-- What an address with no entry reads as: the reset contents (R40, R51). -/
def Memory.unlisted : Byte := 0

/-- The canonical form: addresses strictly rising and inside MEM, no entry equal to what an unlisted address reads as, so that
equal memories are equal data (R50). -/
abbrev Memory.wf (m : Memory) : Prop :=
  m.Pairwise (fun c d => c.1 < d.1) ∧ ∀ c ∈ m, c.1 < memSize ∧ c.2 ≠ Memory.unlisted

/-- MEM[a], one byte (R11 MemRead with n = 1, R57). -/
def Memory.read : Memory → Nat → Byte
  | [], _ => Memory.unlisted
  | c :: rest, a => if c.1 = a then c.2 else Memory.read rest a

/-- Puts an entry at its place in the address order. -/
def Memory.insertCell : Memory → Nat → Byte → Memory
  | [], a, b => [(a, b)]
  | c :: rest, a, b => if a < c.1 then (a, b) :: c :: rest else c :: Memory.insertCell rest a b

/-- Drops what is listed for an address. -/
def Memory.erase (m : Memory) (a : Nat) : Memory := m.filter (fun c => c.1 != a)

/-- MEM[a] <- b, one byte (R11 MemWrite, R57). -/
def Memory.write (m : Memory) (a : Nat) (b : Byte) : Memory :=
  if b = Memory.unlisted then m.erase a else (m.erase a).insertCell a b

/-- The bytes stored one after the other from `a` upward, in that order (R52, R59). -/
def Memory.writeList (m : Memory) (a : Nat) : List Byte → Memory
  | [] => m
  | b :: rest => Memory.writeList (m.write a b) (a + 1) rest

/-- The `len` bytes from `a` upward (R52). -/
def Memory.readList (m : Memory) (a len : Nat) : List Byte := (List.range len).map (fun j => m.read (a + j))

/-! ### Registers and the other fields -/

/-- V[r] (R11, R20). -/
def State.reg (s : State) (r : Reg) : Byte := s.v[r]

/-- V[r] <- b (R11, R20). No register is hardwired. -/
def State.setReg (s : State) (r : Reg) (b : Byte) : State := { s with v := s.v.set r b }

/-- I <- w (R22). -/
def State.setIndex (s : State) (w : Word) : State := { s with iReg := w }

/-- pc <- w (R23). -/
def State.setPc (s : State) (w : Word) : State := { s with pc := w }

/-- pc <- pc + 2 (R12, R24). -/
def State.advance (s : State) : State := s.setPc (s.pc + 2)

/-- A skip instruction's pc: pc + 4 if the condition holds, else pc + 2 (R24, R104). -/
def State.skipIf (s : State) (cond : Bool) : State := s.setPc (if cond then s.pc + 4 else s.pc + 2)

/-- MEM replaced. -/
def State.setMem (s : State) (m : Memory) : State := { s with mem := m }

/-- FB replaced. -/
def State.setFb (s : State) (fb : FrameBuffer) : State := { s with fb := fb }

/-- KEYS[k] (R29). -/
def State.key (s : State) (k : Reg) : Bool := s.keys[k]

/-- KEYS[k] <- level (R185). -/
def State.putKey (s : State) (k : Reg) (level : Bool) : State := { s with keys := s.keys.set k level }

/-- DT <- b (R30). -/
def State.setDt (s : State) (b : Byte) : State := { s with dt := b }

/-- ST <- b (R30). -/
def State.setSt (s : State) (b : Byte) : State := { s with st := b }

/-- BEEP <- level (R31). -/
def State.setBeep (s : State) (level : Bool) : State := { s with beep := level }

/-- KW <- k (R33). -/
def State.setKw (s : State) (k : Option Reg) : State := { s with kw := k }

/-- FAULT <- r (R32). -/
def State.setFault (s : State) (r : FaultRecord) : State := { s with fault := r }

/-- The host's side replaced. -/
def State.setHost (s : State) (h : HostSide) : State := { s with host := h }

/-! ### The call stack (R27) -/

/-- STACK[j]; a slot outside STACK_DEPTH does not exist and is never asked for (log entry 8). -/
def State.slot (s : State) (j : Nat) : Word := s.stack.getD j 0

/-- SP <- n (R27). -/
def State.setSp (s : State) (n : Nat) : State := { s with sp := n }

/-- STACK[j] <- w (R27). -/
def State.setSlot (s : State) (j : Nat) (w : Word) : State := { s with stack := s.stack.set j w }

/-- The push of a CALL once the depth has been checked: STACK[SP] <- w, SP <- SP + 1 (R27, R102). -/
def State.push (s : State) (w : Word) : State := (s.setSlot s.sp w).setSp (s.sp + 1)

/-- The pop of a RET once the depth has been checked: SP <- SP - 1; the slot keeps its content (R27, R100). -/
def State.pop (s : State) : State := s.setSp (s.sp - 1)

/-! ### Faults (spec/60_exceptions.md) -/

/-- The numeric code of a cause (R221, D8). -/
def FaultCause.code : FaultCause → BitVec 3
  | .noFault => 0
  | .stackUnderflow => 2
  | .stackOverflow => 3
  | .unimplementedOpcode => 4
  | .outOfBounds => 5
  | .badKeyIndex => 6

/-- The numeric code of RomTooLarge, a result of LOAD that never stands in FAULT (R221, R233). -/
def LoadResult.code : LoadResult → BitVec 3
  | .romTooLarge => 1
  | .accepted => 0
  | .noLoad => 0

/-- FAULT.cause is not 0 (R15 "Faulted", R91). -/
def State.faulted (s : State) : Bool := s.fault.cause != .noFault

/-- `raise cause(pc = pc, opcode, addr)`: every piece of state keeps its value and FAULT is written (R222). This is the whole of
a trap entry on this machine: nothing is saved elsewhere, no mode changes, pc stays on the faulting instruction (R226). -/
def State.raise (s : State) (cause : FaultCause) (opcode addr : Word) : State :=
  s.setFault { cause := cause, pc := s.pc, opcode := opcode, addr := addr }

/-- INIT: every piece of state at its reset value in one step (R250). It is the only way out of a faulted state: no instruction
returns from a fault (R227, R251). The parameters and the host's side are no state of the core (log entry 5). -/
def State.init (s : State) : State := State.resetWith s.config s.host

/-! ### The host's ports -/

/-- The byte on the rnd input in this cycle: the one the host names, else the next free value (R8, R131, log entry 3). -/
def State.rndByte (s : State) : Byte := s.host.rndIn.getD (Config.freeRnd s.host.rndCount)

/-- A random byte has been taken: the next free value is another one. -/
def State.countRnd (s : State) : State := s.setHost { s.host with rndCount := s.host.rndCount + 1 }

/-- The event the host presents next: the first it has lined up, else the next of its source (R9). -/
def EventQueue.next (q : EventQueue) : HostEvent :=
  match q.pending with
  | e :: _ => e
  | [] =>
    match q.later with
    | .repeating first _ => first
    | .free stream k => Config.freeEvent stream k

/-- The events after that one. -/
def EventQueue.rest (q : EventQueue) : EventQueue :=
  match q.pending with
  | _ :: others => { q with pending := others }
  | [] =>
    match q.later with
    | .repeating _ others => { q with pending := others }
    | .free stream k => { q with later := .free stream (k + 1) }

/-- The first `n` events of a queue, in order. -/
def EventQueue.first (q : EventQueue) : Nat → List HostEvent
  | 0 => []
  | n + 1 => q.next :: q.rest.first n

/-- A queue without its first `n` events. -/
def EventQueue.drop (q : EventQueue) : Nat → EventQueue
  | 0 => q
  | n + 1 => q.rest.drop n

/-- The host's events replaced. -/
def State.setEvents (s : State) (q : EventQueue) : State := s.setHost { s.host with events := q }

/-- The host's next event is taken off its queue. -/
def State.takeEvent (s : State) : State := s.setEvents s.host.events.rest

/-- The host presents a byte, or none, on the rnd input (R8). -/
def State.presentRnd (s : State) (rnd : Option Byte) : State := s.setHost { s.host with rndIn := rnd }

/-- The result of a LOAD is reported to the host (R60, R61). -/
def State.reportLoad (s : State) (r : LoadResult) : State := s.setHost { s.host with loadResult := r }

/-- What the host can read between events: FB, BEEP and FAULT (R8, R259). -/
structure HostView where
  fb : FrameBuffer
  beep : Bool
  fault : FaultRecord
deriving DecidableEq, Repr

/-- The three outputs (R8). -/
def State.hostView (s : State) : HostView := { fb := s.fb, beep := s.beep, fault := s.fault }

end Sys2Proof.Machine
end

