-- ==== Sys2Proof/Machine/Operands.lean ====
section
/-!
DEFINITION. The operand forms: immediates (R73), the memory range at I and its bound check (R55, R155), key indexes (R188),
sprite coordinates and layout (R171, R172), decimal digits (R152).
-/

namespace Sys2Proof.Machine

/-- `n mod 256` as a byte (R11, R133). -/
def byteOf (n : Nat) : Byte := BitVec.ofNat 8 n

/-- `n mod 65536` as a 16-bit value (R151). -/
def wordOf (n : Nat) : Word := BitVec.ofNat 16 n

/-- `zext_16` of a byte (R11). -/
def zext16 (b : Byte) : Word := b.setWidth 16

/-- `zext_16` of `nnn` (R73). -/
def zextAddr (nnn : Addr12) : Word := nnn.setWidth 16

/-! ### Memory through I -/

/-- The effective address of element `j`: I + j as a natural number, never wrapped or masked (R155). -/
def State.effAddr (s : State) (j : Nat) : Nat := s.iReg.toNat + j

/-- The range of `len` bytes at I leaves MEM: `len > 0 and I + len - 1 > 0xFFF` (R55). -/
def State.outOfRange (s : State) (len : Nat) : Bool := decide (0 < len ∧ s.iReg.toNat + len - 1 > 0xFFF)

/-- FAULT.addr of an out-of-range access: `max(I, 0x1000)`, the lowest offending address (R55). -/
def State.offendingAddr (s : State) : Word := wordOf (max s.iReg.toNat 0x1000)

/-- The bound check of Dxyn, Fx33, Fx55 and Fx65, made once, before any read or write: `i` faults OutOfBounds if its `len` bytes
at I leave MEM, and otherwise answers `t` (R55). -/
def State.checkRange (s : State) (i : Instr) (len : Nat) (t : State) : Host.Outcome State Fault Refusal :=
  if s.outOfRange len then .next (s.raise .outOfBounds (encode i) s.offendingAddr) else .next t

/-- V[0]..V[x], the registers Fx55 stores (R153). -/
def State.regsUpTo (s : State) (x : Reg) : List Byte := (List.range (x.val + 1)).map (fun j => s.reg (Fin.ofNat 16 j))

/-- V[j] <- b for the bytes in turn, from V[j] upward (R154). -/
def State.loadRegs (s : State) (j : Nat) : List Byte → State
  | [] => s
  | b :: rest => State.loadRegs (s.setReg (Fin.ofNat 16 j) b) (j + 1) rest

/-- The three decimal digits of a byte: hundreds, tens, ones (R152). -/
def decimalDigits (b : Byte) : List Byte :=
  [byteOf (b.toNat / 100), byteOf (b.toNat / 10 % 10), byteOf (b.toNat % 10)]

/-! ### Keys -/

/-- The key-index check of Ex9E and ExA1: `i` faults BadKeyIndex if V[x] > 15, with FAULT.addr = V[x]; otherwise `k` gets the
key index (R186, R187, R188). -/
def State.withKeyIndex (s : State) (i : Instr) (x : Reg) (k : Reg → State) : Host.Outcome State Fault Refusal :=
  if (s.reg x).toNat > 15 then .next (s.raise .badKeyIndex (encode i) (zext16 (s.reg x)))
  else .next (k (Fin.ofNat 16 (s.reg x).toNat))

/-- The least held key, if one is held (R189, R190). -/
def State.leastHeld (s : State) : Option Reg := (List.finRange 16).find? (fun k => s.key k)

/-! ### Sprites -/

/-- The framebuffer and the collision so far, as a draw goes on. -/
structure Canvas where
  fb : FrameBuffer
  hit : Bool
deriving DecidableEq, Repr

/-- FB[row][col] (R28). -/
def FrameBuffer.pixel (fb : FrameBuffer) (row : Fin 32) (col : Fin 64) : Bool := fb[row][col]

/-- FB[row][col] <- FB[row][col] XOR 1 (R171). -/
def FrameBuffer.toggle (fb : FrameBuffer) (row : Fin 32) (col : Fin 64) : FrameBuffer :=
  fb.set row (fb[row].set col (!fb.pixel row col))

/-- One set sprite bit: the pixel is toggled, and if it was 1 there is a collision (R171). -/
def Canvas.plot (cv : Canvas) (row : Fin 32) (col : Fin 64) : Canvas :=
  { fb := FrameBuffer.toggle cv.fb row col, hit := cv.hit || FrameBuffer.pixel cv.fb row col }

/-- One sprite byte drawn at `row` from column `x0`: bit 7 is the leftmost pixel, columns wrap modulo 64 (R171, R172). -/
def Canvas.plotByte (cv : Canvas) (row : Fin 32) (x0 : Nat) (b : Byte) : Canvas :=
  (List.range 8).foldl (fun cv c => if b.getLsbD (7 - c) then cv.plot row (Fin.ofNat 64 (x0 + c)) else cv) cv

/-- The sprite's bytes drawn one a row from row `y0` down, rows wrapping modulo 32 (R171, R172). -/
def Canvas.plotRows (cv : Canvas) (x0 y0 : Nat) : List Byte → Canvas
  | [] => cv
  | b :: rest => Canvas.plotRows (cv.plotByte (Fin.ofNat 32 y0) x0 b) x0 (y0 + 1) rest

end Sys2Proof.Machine
end

