-- ==== Sys2Proof/Machine/Flags.lean ====
section
/-!
DEFINITION. Every flag computation of the machine (R21): the byte written to VF, exactly 0 or 1.
-/

namespace Sys2Proof.Machine

/-- A flag as the byte VF gets (R21). -/
def flagByte (b : Bool) : Byte := if b then 1 else 0

/-- 8xy4: 1 if the sum exceeds 255 (R126). -/
def carryFlag (sum : Nat) : Byte := flagByte (decide (sum > 255))

/-- 8xy5: 1 if a >= b, no borrow (R127). -/
def noBorrowFlag (a b : Byte) : Byte := flagByte (decide (a.toNat ≥ b.toNat))

/-- 8xy6: bit 0 before the shift (R128). -/
def shiftRightFlag (a : Byte) : Byte := byteOf (a.toNat % 2)

/-- 8xyE: bit 7 before the shift (R130). -/
def shiftLeftFlag (a : Byte) : Byte := byteOf (a.toNat / 128)

/-- 8xy7: V[y] compared with the updated V[x]; on equality the parameter SUBN_VF_ON_EQUAL (R129, D10). -/
def subnFlag (c : Config) (minuend updated : Byte) : Byte :=
  if minuend.toNat > updated.toNat then 1
  else if minuend = updated then flagByte c.subnVfOnEqual
  else 0

/-- Fx1E: 1 if the unmasked sum exceeds 0xFFF; otherwise 0, or the old VF where FX1E_CLEARS_VF is false (R151, D9). -/
def indexFlag (c : Config) (sum : Nat) (oldVf : Byte) : Byte :=
  if sum > 0xFFF then 1 else if c.fx1eClearsVf then 0 else oldVf

/-- Dxyn: 1 if a set pixel was cleared (R171). -/
def collisionFlag (hit : Bool) : Byte := flagByte hit

end Sys2Proof.Machine
end

