-- ==== Sys2Proof/Machine/ControlFlow.lean ====
section
/-!
DEFINITION. Return, jump, call, indexed jump and the register skips (spec/41_control_flow.md).
-/

namespace Sys2Proof.Machine

/-- 00EE RET (R100). -/
def execRet (s : State) : Host.Outcome State Fault Refusal :=
  if s.sp = 0 then .next (s.raise .stackUnderflow (encode .ret) 0)
  else .next (s.pop.setPc (s.pop.slot s.pop.sp))

/-- 1nnn JP (R101). -/
def execJp (nnn : Addr12) (s : State) : Host.Outcome State Fault Refusal :=
  .next (s.setPc (zextAddr nnn))

/-- 2nnn CALL (R102). The depth test is `SP >= STACK_DEPTH`, which is the rule's `SP = STACK_DEPTH` wherever SP is a depth
(log entry 8). -/
def execCall (nnn : Addr12) (s : State) : Host.Outcome State Fault Refusal :=
  if s.config.stackDepth ≤ s.sp then .next (s.raise .stackOverflow (encode (.call nnn)) 0)
  else .next ((s.push (s.pc + 2)).setPc (zextAddr nnn))

/-- Bnnn JP_V0: neither wrapped nor masked to 12 bits (R103, D25). -/
def execJpV0 (nnn : Addr12) (s : State) : Host.Outcome State Fault Refusal :=
  .next (s.setPc (zext16 (s.reg 0) + zextAddr nnn))

/-- 3xnn SE_IMM (R104). -/
def execSeImm (x : Reg) (nn : Byte) (s : State) : Host.Outcome State Fault Refusal :=
  .next (s.skipIf (s.reg x == nn))

/-- 4xnn SNE_IMM (R105). -/
def execSneImm (x : Reg) (nn : Byte) (s : State) : Host.Outcome State Fault Refusal :=
  .next (s.skipIf (s.reg x != nn))

/-- 5xy0 SE_REG (R106). -/
def execSeReg (x y : Reg) (s : State) : Host.Outcome State Fault Refusal :=
  .next (s.skipIf (s.reg x == s.reg y))

/-- 9xy0 SNE_REG (R107). -/
def execSneReg (x y : Reg) (s : State) : Host.Outcome State Fault Refusal :=
  .next (s.skipIf (s.reg x != s.reg y))

end Sys2Proof.Machine
end

