-- ==== Sys2Proof/Machine/Display.lean ====
section
/-!
DEFINITION. Clear and XOR-draw (spec/44_display.md).
-/

namespace Sys2Proof.Machine

/-- 00E0 CLS (R170). -/
def execCls (s : State) : Host.Outcome State Fault Refusal :=
  .next (s.setFb (Vector.replicate 32 (Vector.replicate 64 false))).advance

/-- The framebuffer and the collision after drawing the `n` bytes at I at (V[x], V[y]) (R171). -/
def State.drawn (s : State) (x y : Reg) (n : Nat) : Canvas :=
  Canvas.plotRows { fb := s.fb, hit := false } (s.reg x).toNat (s.reg y).toNat (s.mem.readList (s.effAddr 0) n)

/-- Dxyn DRW: both coordinates are read before VF is written (R171). -/
def execDrw (x y : Reg) (n : Nibble) (s : State) : Host.Outcome State Fault Refusal :=
  s.checkRange (.drw x y n) n.toNat
    ((s.setFb (s.drawn x y n.toNat).fb).setReg VF (collisionFlag (s.drawn x y n.toNat).hit)).advance

end Sys2Proof.Machine
end

