-- ==== Sys2Proof/Machine/IndexMemory.lean ====
section
/-!
DEFINITION. The index register and memory transfer (spec/43_index_memory.md). I is never changed by a transfer (R155).
-/

namespace Sys2Proof.Machine

/-- Annn LD_I (R150). -/
def execLdI (nnn : Addr12) (s : State) : Host.Outcome State Fault Refusal :=
  .next (s.setIndex (zextAddr nnn)).advance

/-- Fx1E ADD_I: V[x] is read before VF is written (R151). -/
def execAddI (x : Reg) (s : State) : Host.Outcome State Fault Refusal :=
  let sum := s.iReg.toNat + (s.reg x).toNat
  .next ((s.setIndex (wordOf sum)).setReg VF (indexFlag s.config sum (s.reg VF))).advance

/-- Fx33 BCD (R152). -/
def execBcd (x : Reg) (s : State) : Host.Outcome State Fault Refusal :=
  s.checkRange (.bcd x) 3 (s.setMem (s.mem.writeList (s.effAddr 0) (decimalDigits (s.reg x)))).advance

/-- Fx55 STM (R153). -/
def execStm (x : Reg) (s : State) : Host.Outcome State Fault Refusal :=
  s.checkRange (.stm x) (x.val + 1) (s.setMem (s.mem.writeList (s.effAddr 0) (s.regsUpTo x))).advance

/-- Fx65 LDM (R154). -/
def execLdm (x : Reg) (s : State) : Host.Outcome State Fault Refusal :=
  s.checkRange (.ldm x) (x.val + 1) (s.loadRegs 0 (s.mem.readList (s.effAddr 0) (x.val + 1))).advance

end Sys2Proof.Machine
end

