-- ==== Sys2Proof/Machine/Keypad.lean ====
section
/-!
DEFINITION. The key skips and the blocking key wait (spec/45_keypad.md).
-/

namespace Sys2Proof.Machine

/-- Ex9E SKP (R186). -/
def execSkp (x : Reg) (s : State) : Host.Outcome State Fault Refusal :=
  s.withKeyIndex (.skp x) x (fun k => s.skipIf (s.key k))

/-- ExA1 SKNP (R187). -/
def execSknp (x : Reg) (s : State) : Host.Outcome State Fault Refusal :=
  s.withKeyIndex (.sknp x) x (fun k => s.skipIf (!s.key k))

/-- Fx0A LD_VX_KEY: one arm of the key-wait state machine (R189, R190). -/
def execLdVxKey (x : Reg) (s : State) : Host.Outcome State Fault Refusal :=
  match s.kw with
  | none =>
    match s.leastHeld with
    | some k => .next (s.setKw (some k))
    | none => .next s
  | some k =>
    if s.key k then .next s
    else .next ((s.setReg x (byteOf k.val)).setKw none).advance

end Sys2Proof.Machine
end

