-- ==== Sys2Proof/Machine/LoadAlu.lean ====
section
/-!
DEFINITION. Register loads, arithmetic, logic, shifts and the random byte (spec/42_load_alu.md). Each meaning is its rule's
assignments in the order written, each reading the registers as the one before left them (R11, R132).
-/

namespace Sys2Proof.Machine

/-- 6xnn LD_IMM (R120). -/
def execLdImm (x : Reg) (nn : Byte) (s : State) : Host.Outcome State Fault Refusal :=
  .next (s.setReg x nn).advance

/-- 7xnn ADD_IMM: no flag (R121). -/
def execAddImm (x : Reg) (nn : Byte) (s : State) : Host.Outcome State Fault Refusal :=
  .next (s.setReg x (byteOf ((s.reg x).toNat + nn.toNat))).advance

/-- 8xy0 LD_REG (R122). -/
def execLdReg (x y : Reg) (s : State) : Host.Outcome State Fault Refusal :=
  .next (s.setReg x (s.reg y)).advance

/-- 8xy1 OR: VF is no side effect (R123). -/
def execOr (x y : Reg) (s : State) : Host.Outcome State Fault Refusal :=
  .next (s.setReg x (s.reg x ||| s.reg y)).advance

/-- 8xy2 AND: VF is no side effect (R124). -/
def execAnd (x y : Reg) (s : State) : Host.Outcome State Fault Refusal :=
  .next (s.setReg x (s.reg x &&& s.reg y)).advance

/-- 8xy3 XOR: VF is no side effect (R125). -/
def execXor (x y : Reg) (s : State) : Host.Outcome State Fault Refusal :=
  .next (s.setReg x (s.reg x ^^^ s.reg y)).advance

/-- 8xy4 ADD_REG: result, then carry (R126). -/
def execAddReg (x y : Reg) (s : State) : Host.Outcome State Fault Refusal :=
  let sum := (s.reg x).toNat + (s.reg y).toNat
  .next ((s.setReg x (byteOf sum)).setReg VF (carryFlag sum)).advance

/-- 8xy5 SUB: flag first, then V[x] - V[y] read from the registers as the flag left them (R127, R132). -/
def execSub (x y : Reg) (s : State) : Host.Outcome State Fault Refusal :=
  let s := s.setReg VF (noBorrowFlag (s.reg x) (s.reg y))
  .next (s.setReg x (byteOf ((s.reg x).toNat + 256 - (s.reg y).toNat))).advance

/-- 8xy6 SHR: flag first, then the shift of V[x] as the flag left it; y is ignored (R128, R132). -/
def execShr (x _y : Reg) (s : State) : Host.Outcome State Fault Refusal :=
  let s := s.setReg VF (shiftRightFlag (s.reg x))
  .next (s.setReg x (byteOf ((s.reg x).toNat / 2))).advance

/-- 8xy7 SUBN: result first, then the flag from the updated registers (R129, R132). -/
def execSubn (x y : Reg) (s : State) : Host.Outcome State Fault Refusal :=
  let s := s.setReg x (byteOf ((s.reg y).toNat + 256 - (s.reg x).toNat))
  .next (s.setReg VF (subnFlag s.config (s.reg y) (s.reg x))).advance

/-- 8xyE SHL: flag first, then the shift of V[x] as the flag left it; y is ignored (R130, R132). -/
def execShl (x _y : Reg) (s : State) : Host.Outcome State Fault Refusal :=
  let s := s.setReg VF (shiftLeftFlag (s.reg x))
  .next (s.setReg x (byteOf ((s.reg x).toNat * 2))).advance

/-- Cxnn RND: the byte on the rnd input, masked (R131). -/
def execRnd (x : Reg) (nn : Byte) (s : State) : Host.Outcome State Fault Refusal :=
  .next (s.setReg x (s.rndByte &&& nn)).countRnd.advance

end Sys2Proof.Machine
end

