-- ==== Sys2Proof/Machine/Cycle.lean ====
section
/-!
DEFINITION. The event CYCLE: fetch, decode, execute (spec/40_cycle_pipeline.md), and placing a word where it fetches.
-/

namespace Sys2Proof.Machine

/-- A fetch at pc would leave MEM: pc > 0xFFE (R53). -/
def State.fetchOutOfBounds (s : State) : Bool := decide (s.pc.toNat > 0xFFE)

/-- The word at pc: MEM[pc] in bits 15:8, MEM[pc + 1] in bits 7:0, at any pc, odd or even (R52, R54). -/
def State.fetchWord (s : State) : Word := wordOfBytes (s.mem.read s.pc.toNat) (s.mem.read (s.pc.toNat + 1))

/-- CYCLE, the rnd byte already on its input: a faulted core changes nothing; else fetch bound, decode, execute, the first check
that fails being the one recorded (R90, R91, R92). -/
def cycle (s : State) : Host.Outcome State Fault Refusal :=
  if s.faulted then .next s
  else if s.fetchOutOfBounds then .next (s.raise .outOfBounds 0 s.pc)
  else
    match decode s.fetchWord with
    | .ok i => exec i s
    | .error _ => .next (s.raise .unimplementedOpcode s.fetchWord 0)

/-- The pc a word is placed at for the next fetch: pc itself where a fetch is possible, else the reset vector. -/
def State.placePc (s : State) : Word := if s.fetchOutOfBounds then 0x200 else s.pc

/-- `s` about to run the word `w`: stored big-endian where the next fetch reads (R52), CYCLE the next event, no fault
recorded, pc where a fetch is possible. Nothing else changes. Log entry 12. -/
def State.placeWord (s : State) (w : Word) : State :=
  (((s.setPc s.placePc).setMem
    (s.mem.writeList s.placePc.toNat [highByte w, lowByte w])).setFault .none).setEvents .cycles

end Sys2Proof.Machine
end

