-- ==== Sys2Proof/Machine/HostEvents.lean ====
section
/-!
DEFINITION. The host's events (R8): INIT (R250), LOAD (R60, R61), SETKEY (R185), CYCLE (R90), TICK (R203). Every event is
accepted in every state, faulted and waiting included (R191, R251, D17).
-/

namespace Sys2Proof.Machine

/-- LOAD(bytes): more than 3584 bytes is refused whole, with the result RomTooLarge; else the bytes are copied to 0x200 upward.
Nothing else changes (R60, R61, R233). -/
def eventLoad (bytes : List Byte) (s : State) : State :=
  if bytes.length > maxProg then s.reportLoad .romTooLarge
  else (s.setMem (s.mem.writeList loadBase bytes)).reportLoad .accepted

/-- SETKEY(k, level) (R185). -/
def eventSetKey (k : Reg) (level : Bool) (s : State) : State := s.putKey k level

/-- One count down, never below 0 (R30, R203). -/
def countDown (b : Byte) : Byte := if b.toNat > 0 then byteOf (b.toNat - 1) else b

/-- TICK: both timers count down, and BEEP follows ST as just updated (R203). -/
def eventTick (s : State) : State :=
  ((s.setDt (countDown s.dt)).setSt (countDown s.st)).setBeep (decide ((countDown s.st).toNat > 0))

/-- One event of the host (R8, R9). -/
def hostEvent (e : HostEvent) (s : State) : Host.Outcome State Fault Refusal :=
  match e with
  | .init => .next s.init
  | .load bytes => .next (eventLoad bytes s)
  | .setKey k level => .next (eventSetKey k level s)
  | .cycle rnd => cycle (s.presentRnd rnd)
  | .tick => .next (eventTick s)

/-- The host's next event, whole (R9). -/
def nextEvent (s : State) : Host.Outcome State Fault Refusal := hostEvent s.host.events.next s.takeEvent

end Sys2Proof.Machine
end

