-- ==== Sys2Proof/Machine/Step.lean ====
section
/-!
DEFINITION. One step of the machine: one event of the host (R7, R9).
-/

namespace Sys2Proof.Machine

/-- One step is one atomic event (R9). -/
def step (s : State) : Host.Outcome State Fault Refusal := nextEvent s

/-- `s` with the table word `(nbits, w)` where the next step fetches its instruction. Log entry 12. -/
def State.withFetchWord (s : State) (nbits w : Nat) : State := s.placeWord (tableWord nbits w)

end Sys2Proof.Machine
end

