-- ==== Sys2Proof/Safety.lean ====
section
/-!
DEFINITION. The terms claims use: the parts of the state and what leaves them alone, the invariant, a safe run and its end.
-/

namespace Sys2Proof.Machine

/-! ### Parts of the state, for frames -/

/-- One separately writable piece of state. -/
inductive Part where
  | reg (r : Reg)
  | index
  | pc
  | sp
  | slot (j : Nat)
  | byte (a : Nat)
  | pixel (row : Fin 32) (col : Fin 64)
  | key (k : Reg)
  | delay
  | sound
  | beep
  | fault
  | keyWait
  | config
  | events
  | rndIn
  | rndCount
  | loadResult
deriving DecidableEq, Repr

/-- The piece holds the same in both states; memory through its read of one byte, a stack slot through its content. -/
def Part.same (s t : State) : Part → Prop
  | .reg r => t.reg r = s.reg r
  | .index => t.iReg = s.iReg
  | .pc => t.pc = s.pc
  | .sp => t.sp = s.sp
  | .slot j => t.stack[j]? = s.stack[j]?
  | .byte a => t.mem.read a = s.mem.read a
  | .pixel row col => FrameBuffer.pixel t.fb row col = FrameBuffer.pixel s.fb row col
  | .key k => t.key k = s.key k
  | .delay => t.dt = s.dt
  | .sound => t.st = s.st
  | .beep => t.beep = s.beep
  | .fault => t.fault = s.fault
  | .keyWait => t.kw = s.kw
  | .config => t.config = s.config
  | .events => t.host.events = s.host.events
  | .rndIn => t.host.rndIn = s.host.rndIn
  | .rndCount => t.host.rndCount = s.host.rndCount
  | .loadResult => t.host.loadResult = s.host.loadResult

/-- From `s` to `t` nothing changes outside the parts `written` names: the frame of an instruction or an event. -/
def OnlyChanges (s t : State) (written : Part → Prop) : Prop := ∀ p, ¬ written p → p.same s t

/-- A fault was raised and did nothing else: FAULT holds the record, everything else is as it was (R222). -/
def RaisedOnly (s t : State) (cause : FaultCause) (opcode addr : Word) : Prop :=
  t.fault = { cause := cause, pc := s.pc, opcode := opcode, addr := addr } ∧ OnlyChanges s t (fun p => p = .fault)

/-! ### What an instruction may write (R20, R21, R93) -/

/-- The V registers an instruction may write: its destination field, the range of Fx65, and VF for the flag writers of R21. -/
def Instr.mayWriteReg (i : Instr) (r : Reg) : Prop :=
  match i with
  | .ldImm x _ | .addImm x _ | .ldReg x _ | .or x _ | .and x _ | .xor x _ | .rnd x _ | .ldVxDt x | .ldVxKey x => r = x
  | .addReg x _ | .sub x _ | .shr x _ | .subn x _ | .shl x _ => r = x ∨ r = VF
  | .drw _ _ _ | .addI _ => r = VF
  | .ldm x => r ≤ x
  | .cls | .ret | .jp _ | .call _ | .seImm _ _ | .sneImm _ _ | .seReg _ _ | .sneReg _ _ | .ldI _ | .jpV0 _ => False
  | .skp _ | .sknp _ | .ldDtVx _ | .ldStVx _ | .bcd _ | .stm _ => False

/-! ### The image of a sprite (R172, R173) -/

/-- How far `b` lies after `a`, going round a circle of `m` places. -/
def ringDistance (m a b : Nat) : Nat := (b + (m - a % m)) % m

/-- Whether the `n`-byte sprite at I, drawn with its left edge at column `x0` and its top edge at row `y0`, covers the pixel with
a set bit: byte r is row r, bit 7 is the leftmost column, columns wrap modulo 64 and rows modulo 32 (R172). -/
def State.spriteBit (s : State) (x0 y0 n : Nat) (row : Fin 32) (col : Fin 64) : Bool :=
  let r := ringDistance 32 y0 row.val
  let c := ringDistance 64 x0 col.val
  decide (r < n) && decide (c < 8) && (s.mem.read (s.iReg.toNat + r)).getLsbD (7 - c)

/-! ### The invariant -/

/-- What every state holds that a run from reset reaches: memory is canonical, the stack has STACK_DEPTH slots and SP is a depth
(R27), a live return address is at most 0x1000 and pc at most 0x10FE (R25), and FAULT's other fields are 0 while no fault is
recorded, FAULT.pc never exceeding 0x10FE (R32). -/
structure State.Inv (s : State) : Prop where
  mem_wf : s.mem.wf
  slots : s.stack.length = s.config.stackDepth
  depth : s.sp ≤ s.config.stackDepth
  live : ∀ j, j < s.sp → (s.slot j).toNat ≤ 0x1000
  pc_le : s.pc.toNat ≤ 0x10FE
  no_fault : s.fault.cause = .noFault → s.fault = .none
  fault_pc_le : s.fault.pc.toNat ≤ 0x10FE

/-! ### Safe runs -/

/-- A run has failed once a fault is recorded (R223). -/
def State.Safe (s : State) : Prop := s.fault.cause = .noFault

/-- The spec's convention for a finished program: pc holds the address of a `JP` to itself and no fault is recorded (R258). -/
def State.Finished (s : State) : Prop :=
  s.Safe ∧ s.pc.toNat ≤ 0xFFE ∧ decode s.fetchWord = .ok (.jp (BitVec.ofNat 12 s.pc.toNat))

/-- `t` is reached from `s` by steps of the machine. -/
inductive Reaches (s : State) : State → Prop where
  | refl : Reaches s s
  | tail {t u : State} : Reaches s t → step t = .next u → Reaches s u

/-- `s` with the events the host lines up before those of its source (R9). -/
def State.withEvents (s : State) (events : List HostEvent) : State := s.setEvents { s.host.events with pending := events }

/-- `s` with a source of events and none lined up before it (R9). -/
def State.withSource (s : State) (source : EventSource) : State := s.setEvents { pending := [], later := source }

end Sys2Proof.Machine
end

