-- ==== Sys2Proof/Certificates/Slice0/Obligations.lean ====
section
/-!
DEFINITION. The statements for the provers. Each says a numbered rule of spec/, or what follows from several of them. An
instruction's statement gives its word, the next state's values and its frame (OnlyChanges: every part not named is as before,
memory byte by byte). A clause that rests on a decision the spec marks as its own (D<n>), or on a choice of this model (log entry
<n>), is named in the docstring.
-/

open Sys2Proof Sys2Proof.Machine

/-! ### Reset and the host's events -/

/-- R250: INIT writes every piece of state to its reset value in one step, in any state. -/
def Obligations.InitResetsEveryPieceOfState : Prop :=
  ∀ (s : State), s.host.events.next = .init →
    ∃ t, Sys2Proof.Machine.step s = .next t ∧
      (∀ r, t.reg r = 0) ∧ t.iReg = 0 ∧ t.pc = 0x200 ∧ t.sp = 0 ∧
      t.stack = List.replicate s.config.stackDepth 0 ∧ (∀ a, a ≤ 0xFFF → t.mem.read a = 0) ∧
      (∀ row col, FrameBuffer.pixel t.fb row col = false) ∧ (∀ k, t.key k = false) ∧
      t.dt = 0 ∧ t.st = 0 ∧ t.beep = false ∧
      t.fault = { cause := .noFault, pc := 0, opcode := 0, addr := 0 } ∧ t.kw = none

/-- R40 and the defaults of R6: the model's reset state is the state INIT leaves in a machine with the default parameters. That
the parameters and the host's side survive INIT is the model's choice (log entry 5). -/
def Obligations.ResetStateIsWhatInitLeaves : Prop :=
  State.reset.config = { stackDepth := 16, fx1eClearsVf := true, subnVfOnEqual := true } ∧ State.reset.pc = 0x200 ∧
    ∀ (s : State), s.config = State.reset.config → s.host.events.next = .init →
      ∃ t, Sys2Proof.Machine.step s = .next t ∧ t.host = { s.host with events := s.host.events.rest } ∧
        OnlyChanges State.reset t
          (fun p => p = .events ∨ p = .rndIn ∨ p = .rndCount ∨ p = .loadResult)

/-- LOAD (20_memory.md section 6): an accepted program is copied to 0x200 upward and nothing else of the core changes, in any
state (D20). The result field is the model's (log entry 4). -/
def Obligations.LoadCopiesTheProgramAndNothingElse : Prop :=
  ∀ (s : State) (bytes : List Byte), s.host.events.next = .load bytes → bytes.length ≤ 3584 →
    ∃ t, Sys2Proof.Machine.step s = .next t ∧
      (∀ i (h : i < bytes.length), t.mem.read (0x200 + i) = bytes[i]) ∧ t.host.events = s.host.events.rest ∧
      OnlyChanges s t
        (fun p => (∃ i, i < bytes.length ∧ p = .byte (0x200 + i)) ∨ p = .events ∨ p = .loadResult)

/-- RomTooLarge (20_memory.md section 6): more than 3584 bytes is refused with no state mutation; 3584 or fewer is accepted, 3584
bytes filling 0x200 to 0xFFF exactly. The result is read from the model's field for what LOAD reports (log entry 4). -/
def Obligations.OversizedLoadIsRejectedBeforeAnyMutation : Prop :=
  ∀ (s : State) (bytes : List Byte), s.host.events.next = .load bytes →
    ∃ t, Sys2Proof.Machine.step s = .next t ∧
      (bytes.length > 3584 →
        t.host.loadResult = .romTooLarge ∧ OnlyChanges s t (fun p => p = .events ∨ p = .loadResult)) ∧
      (bytes.length ≤ 3584 → t.host.loadResult = .accepted) ∧
      (∀ h : bytes.length = 3584, ∀ i (hi : i < 3584), t.mem.read (0x200 + i) = bytes[i])

/-- SETKEY (45_keypad.md): it writes one key level and nothing else, in any state; no index outside 0..15 can be presented
(D27). -/
def Obligations.SetKeyWritesOneKeyLevel : Prop :=
  ∀ (s : State) (k : Reg) (level : Bool), s.host.events.next = .setKey k level →
    ∃ t, Sys2Proof.Machine.step s = .next t ∧ t.key k = level ∧ t.host.events = s.host.events.rest ∧
      OnlyChanges s t (fun p => p = .key k ∨ p = .events)

/-- TICK (46_timers.md): both timers count down and stop at 0, BEEP is on exactly while ST is above 0 after the count; nothing
else changes. That it acts in every state, faulted and waiting included, is D17; that BEEP is a register is D16. -/
def Obligations.TickCountsBothTimersAndSetsBeep : Prop :=
  ∀ (s : State), s.host.events.next = .tick →
    ∃ t, Sys2Proof.Machine.step s = .next t ∧
      t.dt.toNat = s.dt.toNat - 1 ∧ t.st.toNat = s.st.toNat - 1 ∧ (t.beep = true ↔ s.st.toNat ≥ 2) ∧
      t.host.events = s.host.events.rest ∧
      OnlyChanges s t (fun p => p = .delay ∨ p = .sound ∨ p = .beep ∨ p = .events)

/-- The timers over any number of ticks in a row (46_timers.md, TICK), lined up or recurring: each loses one a tick and never goes
below 0; after at least one tick BEEP is on exactly while ST is above 0, that is while ST was above n; nothing else changes. -/
def Obligations.TicksInARowCountDownToZero : Prop :=
  ∀ (n : Nat) (s : State), s.host.events.first n = List.replicate n .tick →
    ∃ t, Host.Core.run Sys2Proof.core n s = .next t ∧
      t.dt.toNat = s.dt.toNat - n ∧ t.st.toNat = s.st.toNat - n ∧
      t.beep = (if n = 0 then s.beep else decide (s.st.toNat > n)) ∧ t.host.events = s.host.events.drop n ∧
      OnlyChanges s t (fun p => p = .delay ∨ p = .sound ∨ p = .beep ∨ p = .events)

/-! ### The cycle -/

/-- A step runs the decoded instruction (40_cycle_pipeline.md, CYCLE): on a core with no fault and pc at most 0xFFE, the two bytes
at pc, high byte first, are decoded and the instruction is executed at that same pc. Around it the step only takes the event off
the host's queue and puts its byte on the rnd input. The CYCLE may be lined up or come from the queue's source, and may name a byte
or none (log entries 2, 3). -/
def Obligations.StepRunsTheDecodedInstruction : Prop :=
  ∀ (s : State) (i : Instr) (b : Option Byte), s.fault.cause = .noFault → s.pc.toNat ≤ 0xFFE →
    decode (BitVec.ofNat 16 ((s.mem.read s.pc.toNat).toNat * 256 + (s.mem.read (s.pc.toNat + 1)).toNat)) = .ok i →
    s.host.events.next = .cycle b →
    Sys2Proof.Machine.step s =
      Sys2Proof.Machine.exec i { s with host := { s.host with events := s.host.events.rest, rndIn := b } }

/-- While FAULT.cause is not 0 a CYCLE, with a byte named or none, changes nothing (40_cycle_pipeline.md; the spec's own decision
D3). The host's queue and the byte on its rnd input are the model's (log entries 2, 3). -/
def Obligations.FaultedCycleChangesNothing : Prop :=
  ∀ (s : State) (b : Option Byte), s.fault.cause ≠ .noFault → s.host.events.next = .cycle b →
    ∃ t, Sys2Proof.Machine.step s = .next t ∧ OnlyChanges s t (fun p => p = .events ∨ p = .rndIn)

/-- A CYCLE, with a byte named or none, whose fetch has pc > 0xFFE raises OutOfBounds with FAULT.addr = pc, and changes nothing else
(20_memory.md section 2; the record and its precision are D3, D4; the host's queue and rnd input are log entries 2, 3). -/
def Obligations.FetchPastTheEndRaisesOutOfBounds : Prop :=
  ∀ (s : State) (b : Option Byte), s.fault.cause = .noFault → s.pc.toNat > 0xFFE → s.host.events.next = .cycle b →
    ∃ t, Sys2Proof.Machine.step s = .next t ∧
      t.fault = { cause := .outOfBounds, pc := s.pc, opcode := 0, addr := s.pc } ∧
      OnlyChanges s t (fun p => p = .fault ∨ p = .events ∨ p = .rndIn)

/-- A CYCLE, with a byte named or none, that fetches an illegal word raises UnimplementedOpcode with the word and pc recorded, and
changes nothing else (30_encoding.md section 4; D3, D4, D15; the host's queue and rnd input are log entries 2, 3). -/
def Obligations.IllegalWordRaisesUnimplementedOpcode : Prop :=
  ∀ (s : State) (w : Word) (b : Option Byte), s.fault.cause = .noFault → s.pc.toNat ≤ 0xFFE →
    w = wordOfBytes (s.mem.read s.pc.toNat) (s.mem.read (s.pc.toNat + 1)) → (∀ i, encode i ≠ w) →
    s.host.events.next = .cycle b →
    ∃ t, Sys2Proof.Machine.step s = .next t ∧
      t.fault = { cause := .unimplementedOpcode, pc := s.pc, opcode := w, addr := 0 } ∧
      OnlyChanges s t (fun p => p = .fault ∨ p = .events ∨ p = .rndIn)

/-- Every event has a defined result in every state: a step never stops (93_implementation_defined.md, end of Part 1). -/
def Obligations.EveryEventHasADefinedResult : Prop :=
  ∀ s : State, ∃ t, Sys2Proof.Machine.step s = .next t

/-- A recorded fault stays as it is until INIT (60_exceptions.md section 1, "Sticky"; D3). -/
def Obligations.RecordedFaultStaysUntilInit : Prop :=
  ∀ (s t : State), s.fault.cause ≠ .noFault → s.host.events.next ≠ .init →
    Sys2Proof.Machine.step s = .next t → t.fault = s.fault

/-- Faults of the execute stage are precise, and each instruction raises at most its own one: RET StackUnderflow, CALL
StackOverflow, DRW, BCD, STM and LDM OutOfBounds, SKP and SKNP BadKeyIndex, every other instruction none (40_cycle_pipeline.md
and 60_exceptions.md section 1; D4, D13). -/
def Obligations.ExecuteFaultsArePreciseAndBelongToTheirInstruction : Prop :=
  ∀ (i : Instr) (s t : State), Sys2Proof.Machine.exec i s = .next t → t.fault ≠ s.fault →
    OnlyChanges s t (fun p => p = .fault) ∧ t.fault.pc = s.pc ∧ t.fault.opcode = encode i ∧
    ((t.fault.cause = .stackUnderflow ∧ i = .ret) ∨
     (t.fault.cause = .stackOverflow ∧ ∃ nnn, i = .call nnn) ∨
     (t.fault.cause = .outOfBounds ∧
       ((∃ x y n, i = .drw x y n) ∨ (∃ x, i = .bcd x) ∨ (∃ x, i = .stm x) ∨ (∃ x, i = .ldm x))) ∨
     (t.fault.cause = .badKeyIndex ∧ ((∃ x, i = .skp x) ∨ (∃ x, i = .sknp x))))

/-- What executing an instruction does not do (40_cycle_pipeline.md, "What CYCLE does not do"): no instruction writes KEYS or BEEP
or the host's queue; DT is written by Fx15 only, ST by Fx18 only, KW by Fx0A only, I by Annn and Fx1E only, MEM by Fx33 and Fx55
only, FB by 00E0 and Dxyn only, the stack by 2nnn and 00EE only. The random-byte counter is the model's (log entry 3). -/
def Obligations.EachPieceOfStateHasItsOwnWriters : Prop :=
  ∀ (i : Instr) (s t : State), Sys2Proof.Machine.exec i s = .next t →
    (∀ k, t.key k = s.key k) ∧ t.beep = s.beep ∧ t.config = s.config ∧ t.host.events = s.host.events ∧
    t.host.rndIn = s.host.rndIn ∧ t.host.loadResult = s.host.loadResult ∧
    (t.dt ≠ s.dt → ∃ x, i = .ldDtVx x) ∧ (t.st ≠ s.st → ∃ x, i = .ldStVx x) ∧ (t.kw ≠ s.kw → ∃ x, i = .ldVxKey x) ∧
    (t.iReg ≠ s.iReg → (∃ nnn, i = .ldI nnn) ∨ (∃ x, i = .addI x)) ∧
    (∀ a, t.mem.read a ≠ s.mem.read a → (∃ x, i = .bcd x) ∨ (∃ x, i = .stm x)) ∧
    (∀ row col, FrameBuffer.pixel t.fb row col ≠ FrameBuffer.pixel s.fb row col →
      i = .cls ∨ (∃ x y n, i = .drw x y n)) ∧
    (t.sp ≠ s.sp → (∃ nnn, i = .call nnn) ∨ i = .ret) ∧
    (t.stack ≠ s.stack → ∃ nnn, i = .call nnn) ∧
    (t.host.rndCount ≠ s.host.rndCount → ∃ x nn, i = .rnd x nn)

/-- Who writes a V register, and who writes VF as a side effect (10_state.md sections 1 and 2): only the destination field of an
instruction, the range V[0]..V[x] of Fx65, and VF in 8xy4 to 8xy7, 8xyE, Dxyn and Fx1E. -/
def Obligations.RegistersAreWrittenOnlyAsDestinationOrFlag : Prop :=
  ∀ (i : Instr) (s t : State) (r : Reg), Sys2Proof.Machine.exec i s = .next t → t.reg r ≠ s.reg r → Instr.mayWriteReg i r

/-- The rnd input is read only in Cxnn (40_cycle_pipeline.md): whatever byte is presented instead, every other instruction
does the same. -/
def Obligations.OnlyRndReadsTheRandomInput : Prop :=
  ∀ (i : Instr) (b : Option Byte) (s t : State), (∀ x nn, i ≠ .rnd x nn) → Sys2Proof.Machine.exec i s = .next t →
    Sys2Proof.Machine.exec i { s with host := { s.host with rndIn := b } } =
      .next { t with host := { t.host with rndIn := b } }

/-! ### Encoding -/

/-- Words written out from the encodings of R75 decode to the instruction they stand for, one of each format and family. -/
def Obligations.WordsOfTheTableDecodeToTheirInstruction : Prop :=
  decode 0x00E0#16 = .ok .cls ∧ decode 0x00EE#16 = .ok .ret ∧ decode 0x1ABC#16 = .ok (.jp 0xABC) ∧
  decode 0x332A#16 = .ok (.seImm 3 0x2A) ∧ decode 0x812E#16 = .ok (.shl 1 2) ∧ decode 0xD01F#16 = .ok (.drw 0 1 15) ∧
  decode 0xE2A1#16 = .ok (.sknp 2) ∧ decode 0xF31E#16 = .ok (.addI 3) ∧ decode 0xF129#16 = .error (.illegal 0xF129#16)

/-- No bit of an encoding is dropped: for every instruction, with every operand at every value, decoding its word gives it back
(30_encoding.md sections 1 and 3). -/
def Obligations.DecodeOfEncodeIsTheInstruction : Prop :=
  ∀ i : Instr, decode (encode i) = .ok i

/-- Every legal word has one meaning, and that instruction's word is the word itself (30_encoding.md section 3); so the FAULT.opcode a meaning
records, the word of its instruction, is the word that was fetched (log entry 13). -/
def Obligations.EncodeOfDecodeIsTheWord : Prop :=
  ∀ (w : Word) (i : Instr), decode w = .ok i → encode i = w

/-- The decoder is the table (30_encoding.md section 3): a word decodes exactly when it matches a row, it matches one row only, and
that row is its instruction's. -/
def Obligations.DecoderAgreesWithTheOpcodeTable : Prop :=
  ∀ w : Word,
    (∀ i, decode w = .ok i → ∀ r ∈ opcodeTable, (w &&& r.mask = r.pattern ↔ r = i.row)) ∧
    ((∀ i, decode w ≠ .ok i) → decode w = .error (.illegal w) ∧ ∀ r ∈ opcodeTable, w &&& r.mask ≠ r.pattern)

/-- The illegal words, exactly (30_encoding.md section 4, the list; the strictness in the low nibble of 5xyN and 9xyN is D15). -/
def Obligations.IllegalWordsAreExactlyTheListed : Prop :=
  ∀ w : Word, decode w = .error (.illegal w) ↔
    let op := w.toNat / 0x1000
    let low := w.toNat % 0x10
    let kk := w.toNat % 0x100
    (op = 0x0 ∧ w.toNat ≠ 0x0E0 ∧ w.toNat ≠ 0x0EE) ∨ (op = 0x5 ∧ low ≠ 0) ∨
    (op = 0x8 ∧ low ∈ [0x8, 0x9, 0xA, 0xB, 0xC, 0xD, 0xF]) ∨ (op = 0x9 ∧ low ≠ 0) ∨
    (op = 0xE ∧ kk ∉ [0x9E, 0xA1]) ∨
    (op = 0xF ∧ kk ∉ [0x07, 0x0A, 0x15, 0x18, 0x1E, 0x33, 0x55, 0x65])

/-! ### Control flow -/

/-- R100: RET pops the newest return address into pc, adding nothing; on an empty stack it faults StackUnderflow with no state
mutation beyond the record. -/
def Obligations.RetPopsTheReturnAddress : Prop :=
  ∀ (s : State), encode .ret = 0x00EE#16 ∧
    (∀ ra, 0 < s.sp → s.stack[s.sp - 1]? = some ra →
      ∃ t, Sys2Proof.Machine.exec .ret s = .next t ∧ t.sp = s.sp - 1 ∧ t.pc = ra ∧
        OnlyChanges s t (fun p => p = .sp ∨ p = .pc)) ∧
    (s.sp = 0 → ∃ t, Sys2Proof.Machine.exec .ret s = .next t ∧ RaisedOnly s t .stackUnderflow 0x00EE 0)

/-- R101: JP puts nnn, zero-extended, into pc and changes nothing else. -/
def Obligations.JpSetsPcToTheTarget : Prop :=
  ∀ (nnn : Addr12) (s : State), (encode (.jp nnn)).toNat = 0x1000 + nnn.toNat ∧
    ∃ t, Sys2Proof.Machine.exec (.jp nnn) s = .next t ∧ t.pc.toNat = nnn.toNat ∧ OnlyChanges s t (fun p => p = .pc)

/-- CALL (41_control_flow.md): with room on the stack, pc + 2 goes to STACK[SP], SP counts up, pc takes the target; at depth
STACK_DEPTH it faults StackOverflow and changes nothing else. The bound is the spec's parameter (D5), here of any value; that the
stack has STACK_DEPTH slots is the invariant of StepKeepsTheInvariant. -/
def Obligations.CallPushesTheReturnAddress : Prop :=
  ∀ (nnn : Addr12) (s : State), (encode (.call nnn)).toNat = 0x2000 + nnn.toNat ∧
    (s.stack.length = s.config.stackDepth → s.sp < s.config.stackDepth →
      ∃ t, Sys2Proof.Machine.exec (.call nnn) s = .next t ∧ t.stack[s.sp]? = some (s.pc + 2) ∧ t.sp = s.sp + 1 ∧
        t.pc.toNat = nnn.toNat ∧ OnlyChanges s t (fun p => p = .slot s.sp ∨ p = .sp ∨ p = .pc)) ∧
    (s.sp = s.config.stackDepth →
      ∃ t, Sys2Proof.Machine.exec (.call nnn) s = .next t ∧ RaisedOnly s t .stackOverflow (encode (.call nnn)) 0)

/-- JP_V0 (41_control_flow.md): pc takes V[0] + nnn, neither wrapped nor masked (D25). -/
def Obligations.JpV0AddsV0ToTheTarget : Prop :=
  ∀ (nnn : Addr12) (s : State), (encode (.jpV0 nnn)).toNat = 0xB000 + nnn.toNat ∧
    ∃ t, Sys2Proof.Machine.exec (.jpV0 nnn) s = .next t ∧ t.pc.toNat = (s.reg 0).toNat + nnn.toNat ∧
      OnlyChanges s t (fun p => p = .pc)

/-- R104 to R107: the four register skips move pc by 4 when their condition holds and by 2 otherwise, and change nothing else. -/
def Obligations.RegisterSkipsMovePcByFourOrTwo : Prop :=
  ∀ (x y : Reg) (nn : Byte) (s : State),
    ((encode (.seImm x nn)).toNat = 0x3000 + x.val * 256 + nn.toNat ∧
      ∃ t, Sys2Proof.Machine.exec (.seImm x nn) s = .next t ∧
        t.pc = (if s.reg x = nn then s.pc + 4 else s.pc + 2) ∧ OnlyChanges s t (fun p => p = .pc)) ∧
    ((encode (.sneImm x nn)).toNat = 0x4000 + x.val * 256 + nn.toNat ∧
      ∃ t, Sys2Proof.Machine.exec (.sneImm x nn) s = .next t ∧
        t.pc = (if s.reg x ≠ nn then s.pc + 4 else s.pc + 2) ∧ OnlyChanges s t (fun p => p = .pc)) ∧
    ((encode (.seReg x y)).toNat = 0x5000 + x.val * 256 + y.val * 16 ∧
      ∃ t, Sys2Proof.Machine.exec (.seReg x y) s = .next t ∧
        t.pc = (if s.reg x = s.reg y then s.pc + 4 else s.pc + 2) ∧ OnlyChanges s t (fun p => p = .pc)) ∧
    ((encode (.sneReg x y)).toNat = 0x9000 + x.val * 256 + y.val * 16 ∧
      ∃ t, Sys2Proof.Machine.exec (.sneReg x y) s = .next t ∧
        t.pc = (if s.reg x ≠ s.reg y then s.pc + 4 else s.pc + 2) ∧ OnlyChanges s t (fun p => p = .pc))

/-- A core cycled at a JP to its own address, with a byte named or none, stays exactly as it is (70_reset_and_hazards.md section 5;
the convention is D21; the host's queue and rnd input are log entries 2, 3). -/
def Obligations.JpToItselfChangesNothing : Prop :=
  ∀ (s : State) (b : Option Byte), s.fault.cause = .noFault → s.pc.toNat ≤ 0xFFE →
    wordOfBytes (s.mem.read s.pc.toNat) (s.mem.read (s.pc.toNat + 1)) = 0x1000 + s.pc → s.host.events.next = .cycle b →
    ∃ t, Sys2Proof.Machine.step s = .next t ∧ OnlyChanges s t (fun p => p = .events ∨ p = .rndIn)

/-- pc stays even as long as every jump and call target is even (10_state.md section 4; the spec's inference): from an even pc and
even live return addresses, an instruction whose target, if it has one, is even leaves both even. -/
def Obligations.PcStaysEvenWithEvenTargets : Prop :=
  ∀ (i : Instr) (s t : State), s.pc.toNat % 2 = 0 → (∀ j, j < s.sp → (s.slot j).toNat % 2 = 0) →
    (∀ nnn : Addr12, i = .jp nnn ∨ i = .call nnn → nnn.toNat % 2 = 0) →
    (∀ nnn : Addr12, i = .jpV0 nnn → ((s.reg 0).toNat + nnn.toNat) % 2 = 0) →
    Sys2Proof.Machine.exec i s = .next t →
    t.pc.toNat % 2 = 0 ∧ ∀ j, j < t.sp → (t.slot j).toNat % 2 = 0

/-! ### Loads, arithmetic, logic, shifts, random -/

/-- R120, R122: LD_IMM and LD_REG write V[x] and pc only. -/
def Obligations.LoadsWriteTheirDestination : Prop :=
  ∀ (x y : Reg) (nn : Byte) (s : State),
    ((encode (.ldImm x nn)).toNat = 0x6000 + x.val * 256 + nn.toNat ∧
      ∃ t, Sys2Proof.Machine.exec (.ldImm x nn) s = .next t ∧ t.reg x = nn ∧ t.pc = s.pc + 2 ∧
        OnlyChanges s t (fun p => p = .reg x ∨ p = .pc)) ∧
    ((encode (.ldReg x y)).toNat = 0x8000 + x.val * 256 + y.val * 16 ∧
      ∃ t, Sys2Proof.Machine.exec (.ldReg x y) s = .next t ∧ t.reg x = s.reg y ∧ t.pc = s.pc + 2 ∧
        OnlyChanges s t (fun p => p = .reg x ∨ p = .pc))

/-- R121: ADD_IMM adds modulo 256 and writes no flag. -/
def Obligations.AddImmWrapsAndWritesNoFlag : Prop :=
  ∀ (x : Reg) (nn : Byte) (s : State), (encode (.addImm x nn)).toNat = 0x7000 + x.val * 256 + nn.toNat ∧
    ∃ t, Sys2Proof.Machine.exec (.addImm x nn) s = .next t ∧
      (t.reg x).toNat = ((s.reg x).toNat + nn.toNat) % 256 ∧ t.pc = s.pc + 2 ∧
      OnlyChanges s t (fun p => p = .reg x ∨ p = .pc)

/-- R123, R124, R125: OR, AND and XOR are bitwise and leave VF alone unless it is the destination. -/
def Obligations.LogicIsBitwiseAndWritesNoFlag : Prop :=
  ∀ (x y : Reg) (s : State),
    ((encode (.or x y)).toNat = 0x8001 + x.val * 256 + y.val * 16 ∧
      ∃ t, Sys2Proof.Machine.exec (.or x y) s = .next t ∧
        (∀ b, b < 8 → (t.reg x).getLsbD b = ((s.reg x).getLsbD b || (s.reg y).getLsbD b)) ∧ t.pc = s.pc + 2 ∧
        OnlyChanges s t (fun p => p = .reg x ∨ p = .pc)) ∧
    ((encode (.and x y)).toNat = 0x8002 + x.val * 256 + y.val * 16 ∧
      ∃ t, Sys2Proof.Machine.exec (.and x y) s = .next t ∧
        (∀ b, b < 8 → (t.reg x).getLsbD b = ((s.reg x).getLsbD b && (s.reg y).getLsbD b)) ∧ t.pc = s.pc + 2 ∧
        OnlyChanges s t (fun p => p = .reg x ∨ p = .pc)) ∧
    ((encode (.xor x y)).toNat = 0x8003 + x.val * 256 + y.val * 16 ∧
      ∃ t, Sys2Proof.Machine.exec (.xor x y) s = .next t ∧
        (∀ b, b < 8 → (t.reg x).getLsbD b = ((s.reg x).getLsbD b ^^ (s.reg y).getLsbD b)) ∧ t.pc = s.pc + 2 ∧
        OnlyChanges s t (fun p => p = .reg x ∨ p = .pc))

/-- ADD_REG (42_load_alu.md): the sum modulo 256 goes to V[x] and then the carry to VF. The forms with x = F, where the carry is
what stays, or y = F rest on the order of assignments the spec chose (D11, log entry 11). -/
def Obligations.AddRegAddsAndReportsCarry : Prop :=
  ∀ (x y : Reg) (s : State), (encode (.addReg x y)).toNat = 0x8004 + x.val * 256 + y.val * 16 ∧
    ∃ t, Sys2Proof.Machine.exec (.addReg x y) s = .next t ∧
      (x ≠ VF → (t.reg x).toNat = ((s.reg x).toNat + (s.reg y).toNat) % 256) ∧
      t.reg VF = (if (s.reg x).toNat + (s.reg y).toNat > 255 then 1 else 0) ∧ t.pc = s.pc + 2 ∧
      OnlyChanges s t (fun p => p = .reg x ∨ p = .reg VF ∨ p = .pc)

/-- SUB (42_load_alu.md): VF first, 1 when V[x] >= V[y]; then V[x] - V[y] modulo 256, each read as the flag left it. The forms
with x = F or y = F rest on the order of assignments the spec chose (D11, log entry 11). -/
def Obligations.SubSubtractsAndReportsNoBorrow : Prop :=
  ∀ (x y : Reg) (s : State), (encode (.sub x y)).toNat = 0x8005 + x.val * 256 + y.val * 16 ∧
    ∃ t, Sys2Proof.Machine.exec (.sub x y) s = .next t ∧
      (x ≠ VF → y ≠ VF → (t.reg x).toNat = ((s.reg x).toNat + 256 - (s.reg y).toNat) % 256) ∧
      (x ≠ VF → y = VF → (t.reg x).toNat =
        ((s.reg x).toNat + 256 - (if (s.reg x).toNat ≥ (s.reg VF).toNat then 1 else 0)) % 256) ∧
      (x ≠ VF → t.reg VF = (if (s.reg x).toNat ≥ (s.reg y).toNat then 1 else 0)) ∧
      (x = VF → y ≠ VF → (t.reg VF).toNat =
        ((if (s.reg VF).toNat ≥ (s.reg y).toNat then 1 else 0) + 256 - (s.reg y).toNat) % 256) ∧
      (x = VF → y = VF → t.reg VF = 0) ∧ t.pc = s.pc + 2 ∧
      OnlyChanges s t (fun p => p = .reg x ∨ p = .reg VF ∨ p = .pc)

/-- SHR (42_load_alu.md): V[x] is shifted right by one, the bit shifted out going to VF first; y is ignored. That VF ends 0 with
x = F rests on the order of assignments the spec chose (D11, log entry 11). -/
def Obligations.ShrHalvesAndReportsTheLowBit : Prop :=
  ∀ (x y : Reg) (s : State), (encode (.shr x y)).toNat = 0x8006 + x.val * 256 + y.val * 16 ∧
    ∃ t, Sys2Proof.Machine.exec (.shr x y) s = .next t ∧
      (x ≠ VF → (t.reg x).toNat = (s.reg x).toNat / 2 ∧ (t.reg VF).toNat = (s.reg x).toNat % 2) ∧
      (x = VF → t.reg VF = 0) ∧ t.pc = s.pc + 2 ∧
      OnlyChanges s t (fun p => p = .reg x ∨ p = .reg VF ∨ p = .pc)

/-- SHL (42_load_alu.md): V[x] is shifted left by one, the bit shifted out going to VF first; y is ignored. That VF ends 0 or 2
with x = F rests on the order of assignments the spec chose (D11, log entry 11). -/
def Obligations.ShlDoublesAndReportsTheHighBit : Prop :=
  ∀ (x y : Reg) (s : State), (encode (.shl x y)).toNat = 0x800E + x.val * 256 + y.val * 16 ∧
    ∃ t, Sys2Proof.Machine.exec (.shl x y) s = .next t ∧
      (x ≠ VF → (t.reg x).toNat = (s.reg x).toNat * 2 % 256 ∧ (t.reg VF).toNat = (s.reg x).toNat / 128) ∧
      (x = VF → t.reg VF = (if (s.reg VF).toNat ≥ 0x80 then 2 else 0)) ∧ t.pc = s.pc + 2 ∧
      OnlyChanges s t (fun p => p = .reg x ∨ p = .reg VF ∨ p = .pc)

/-- SUBN (42_load_alu.md): V[x] takes V[y] - V[x] modulo 256, then VF is set by comparing V[y] with the updated V[x]: 1 if
greater, the parameter SUBN_VF_ON_EQUAL if equal (D10), else 0. x = y always compares equal; the forms with VF rest on D11
(log entry 11). -/
def Obligations.SubnComparesWithTheUpdatedRegister : Prop :=
  ∀ (x y : Reg) (s : State), (encode (.subn x y)).toNat = 0x8007 + x.val * 256 + y.val * 16 ∧
    let r := ((s.reg y).toNat + 256 - (s.reg x).toNat) % 256
    let onEqual : Byte := if s.config.subnVfOnEqual then 1 else 0
    ∃ t, Sys2Proof.Machine.exec (.subn x y) s = .next t ∧
      (x ≠ VF → (t.reg x).toNat = r) ∧
      t.reg VF = (if x = y then onEqual else if (s.reg y).toNat > r then 1 else if (s.reg y).toNat = r then onEqual else 0) ∧
      t.pc = s.pc + 2 ∧ OnlyChanges s t (fun p => p = .reg x ∨ p = .reg VF ∨ p = .pc)

/-- RND (42_load_alu.md): V[x] takes the byte on the rnd input AND nn. The byte is whatever the host presents (D19); where it
names none it is a free value, of which nothing is assumed (log entry 3). -/
def Obligations.RndMasksTheRandomByte : Prop :=
  ∀ (x : Reg) (nn : Byte) (s : State), (encode (.rnd x nn)).toNat = 0xC000 + x.val * 256 + nn.toNat ∧
    ∃ t, Sys2Proof.Machine.exec (.rnd x nn) s = .next t ∧
      (∀ b, s.host.rndIn = some b → t.reg x = b &&& nn) ∧
      (s.host.rndIn = none → t.reg x = Config.freeRnd s.host.rndCount &&& nn) ∧ t.pc = s.pc + 2 ∧
      OnlyChanges s t (fun p => p = .reg x ∨ p = .pc ∨ p = .rndCount)

/-! ### The index register and memory -/

/-- R150: LD_I puts nnn, zero-extended, into I. -/
def Obligations.LdISetsTheIndex : Prop :=
  ∀ (nnn : Addr12) (s : State), (encode (.ldI nnn)).toNat = 0xA000 + nnn.toNat ∧
    ∃ t, Sys2Proof.Machine.exec (.ldI nnn) s = .next t ∧ t.iReg.toNat = nnn.toNat ∧ t.pc = s.pc + 2 ∧
      OnlyChanges s t (fun p => p = .index ∨ p = .pc)

/-- ADD_I (43_index_memory.md): I takes the sum modulo 65536; VF is 1 when the unmasked sum exceeds 0xFFF, otherwise 0 or
unchanged by the parameter FX1E_CLEARS_VF (D9). -/
def Obligations.AddIAddsAndReportsPastTheEnd : Prop :=
  ∀ (x : Reg) (s : State), (encode (.addI x)).toNat = 0xF01E + x.val * 256 ∧
    ∃ t, Sys2Proof.Machine.exec (.addI x) s = .next t ∧
      t.iReg.toNat = (s.iReg.toNat + (s.reg x).toNat) % 65536 ∧
      (s.iReg.toNat + (s.reg x).toNat > 0xFFF → t.reg VF = 1) ∧
      (s.iReg.toNat + (s.reg x).toNat ≤ 0xFFF → t.reg VF = if s.config.fx1eClearsVf then 0 else s.reg VF) ∧
      t.pc = s.pc + 2 ∧ OnlyChanges s t (fun p => p = .index ∨ p = .reg VF ∨ p = .pc)

/-- BCD (43_index_memory.md): the three decimal digits of V[x] go to the three bytes at I; a range past 0xFFF faults OutOfBounds
with nothing written (D4, D7). -/
def Obligations.BcdStoresThreeDigits : Prop :=
  ∀ (x : Reg) (s : State), (encode (.bcd x)).toNat = 0xF033 + x.val * 256 ∧
    (s.iReg.toNat + 2 ≤ 0xFFF → ∃ t, Sys2Proof.Machine.exec (.bcd x) s = .next t ∧
      (t.mem.read (s.effAddr 0)).toNat = (s.reg x).toNat / 100 ∧
      (t.mem.read (s.effAddr 1)).toNat = (s.reg x).toNat / 10 % 10 ∧
      (t.mem.read (s.effAddr 2)).toNat = (s.reg x).toNat % 10 ∧ t.pc = s.pc + 2 ∧
      OnlyChanges s t (fun p => (∃ j, j < 3 ∧ p = .byte (s.effAddr j)) ∨ p = .pc)) ∧
    (s.iReg.toNat + 2 > 0xFFF → ∃ t, Sys2Proof.Machine.exec (.bcd x) s = .next t ∧
      RaisedOnly s t .outOfBounds (encode (.bcd x)) (BitVec.ofNat 16 (max s.iReg.toNat 0x1000)))

/-- STM (43_index_memory.md): V[0]..V[x] go to the bytes I..I + x; a range past 0xFFF faults OutOfBounds with nothing written
(D4, D7). -/
def Obligations.StmStoresTheRegisters : Prop :=
  ∀ (x : Reg) (s : State), (encode (.stm x)).toNat = 0xF055 + x.val * 256 ∧
    (s.iReg.toNat + x.val ≤ 0xFFF → ∃ t, Sys2Proof.Machine.exec (.stm x) s = .next t ∧
      (∀ j : Reg, j ≤ x → t.mem.read (s.effAddr j.val) = s.reg j) ∧ t.pc = s.pc + 2 ∧
      OnlyChanges s t (fun p => (∃ j : Reg, j ≤ x ∧ p = .byte (s.effAddr j.val)) ∨ p = .pc)) ∧
    (s.iReg.toNat + x.val > 0xFFF → ∃ t, Sys2Proof.Machine.exec (.stm x) s = .next t ∧
      RaisedOnly s t .outOfBounds (encode (.stm x)) (BitVec.ofNat 16 (max s.iReg.toNat 0x1000)))

/-- LDM (43_index_memory.md): the bytes I..I + x go to V[0]..V[x]; a range past 0xFFF faults OutOfBounds with no register
written (D4, D7). -/
def Obligations.LdmLoadsTheRegisters : Prop :=
  ∀ (x : Reg) (s : State), (encode (.ldm x)).toNat = 0xF065 + x.val * 256 ∧
    (s.iReg.toNat + x.val ≤ 0xFFF → ∃ t, Sys2Proof.Machine.exec (.ldm x) s = .next t ∧
      (∀ j : Reg, j ≤ x → t.reg j = s.mem.read (s.effAddr j.val)) ∧ t.pc = s.pc + 2 ∧
      OnlyChanges s t (fun p => (∃ j : Reg, j ≤ x ∧ p = .reg j) ∨ p = .pc)) ∧
    (s.iReg.toNat + x.val > 0xFFF → ∃ t, Sys2Proof.Machine.exec (.ldm x) s = .next t ∧
      RaisedOnly s t .outOfBounds (encode (.ldm x)) (BitVec.ofNat 16 (max s.iReg.toNat 0x1000)))

/-- The round trip of 43_index_memory.md: storing V[0]..V[x] and loading them from the same I gives the original values back,
whatever the registers hold in between. -/
def Obligations.StoreThenLoadGivesTheRegistersBack : Prop :=
  ∀ (x j : Reg) (s t u v : State), s.iReg.toNat + x.val ≤ 0xFFF → Sys2Proof.Machine.exec (.stm x) s = .next t →
    OnlyChanges t u (fun p => (∃ r, p = .reg r) ∨ p = .pc) → Sys2Proof.Machine.exec (.ldm x) u = .next v →
    j ≤ x → v.reg j = s.reg j

/-- A store is seen by the next fetch (20_memory.md sections 2 and 4): two registers stored where pc then points are the word
that is fetched, V[0] its high byte. -/
def Obligations.StoredBytesAreFetchedAsWritten : Prop :=
  ∀ (x : Reg) (s t : State), 1 ≤ x → s.iReg.toNat + x.val ≤ 0xFFF → s.pc + 2 = s.iReg →
    Sys2Proof.Machine.exec (.stm x) s = .next t → t.fetchWord.toNat = (s.reg 0).toNat * 256 + (s.reg 1).toNat

/-! ### Display -/

/-- R170: CLS clears every pixel and writes no flag. -/
def Obligations.ClsClearsEveryPixel : Prop :=
  ∀ (s : State), encode .cls = 0x00E0#16 ∧
    ∃ t, Sys2Proof.Machine.exec .cls s = .next t ∧ (∀ row col, FrameBuffer.pixel t.fb row col = false) ∧
      t.pc = s.pc + 2 ∧ OnlyChanges s t (fun p => (∃ row col, p = .pixel row col) ∨ p = .pc)

/-- DRW (44_display.md): the framebuffer is XORed with the wrapped image of the sprite, and VF is 1 exactly when a set pixel was
cleared; the scan order does not matter. A range past 0xFFF faults OutOfBounds with nothing written (D4, D7), n = 0 never
faults. The layout of a sprite is the spec's own (D12, log entry 10). -/
def Obligations.DrwXorsTheWrappedSprite : Prop :=
  ∀ (x y : Reg) (n : Nibble) (s : State),
    (encode (.drw x y n)).toNat = 0xD000 + x.val * 256 + y.val * 16 + n.toNat ∧
    (n = 0 ∨ s.iReg.toNat + n.toNat - 1 ≤ 0xFFF → ∃ t, Sys2Proof.Machine.exec (.drw x y n) s = .next t ∧
      (∀ row col, FrameBuffer.pixel t.fb row col =
        (FrameBuffer.pixel s.fb row col ^^ s.spriteBit (s.reg x).toNat (s.reg y).toNat n.toNat row col)) ∧
      (t.reg VF = 1 ↔ ∃ row col, FrameBuffer.pixel s.fb row col = true ∧
        s.spriteBit (s.reg x).toNat (s.reg y).toNat n.toNat row col = true) ∧
      (t.reg VF = 0 ∨ t.reg VF = 1) ∧ t.pc = s.pc + 2 ∧
      OnlyChanges s t (fun p => (∃ row col, p = .pixel row col) ∨ p = .reg VF ∨ p = .pc)) ∧
    (n ≠ 0 → s.iReg.toNat + n.toNat - 1 > 0xFFF → ∃ t, Sys2Proof.Machine.exec (.drw x y n) s = .next t ∧
      RaisedOnly s t .outOfBounds (encode (.drw x y n)) (BitVec.ofNat 16 (max s.iReg.toNat 0x1000)))

/-- A draw is an involution (44_display.md, properties of a draw; the spec's inference): the same sprite drawn twice at the same
coordinates restores the framebuffer, and the second draw reports a collision exactly when the sprite covers a pixel that was 0. -/
def Obligations.DrawingTwiceRestoresTheScreen : Prop :=
  ∀ (x y : Reg) (n : Nibble) (s t u : State), n = 0 ∨ s.iReg.toNat + n.toNat - 1 ≤ 0xFFF →
    Sys2Proof.Machine.exec (.drw x y n) s = .next t → t.reg x = s.reg x → t.reg y = s.reg y →
    Sys2Proof.Machine.exec (.drw x y n) t = .next u →
    (∀ row col, FrameBuffer.pixel u.fb row col = FrameBuffer.pixel s.fb row col) ∧
    (u.reg VF = 1 ↔ ∃ row col, FrameBuffer.pixel s.fb row col = false ∧
      s.spriteBit (s.reg x).toNat (s.reg y).toNat n.toNat row col = true)

/-! ### Keypad -/

/-- SKP and SKNP (45_keypad.md): with a key index in V[x] they move pc by 4 or 2 by that key's level and change nothing else; above
15 they fault BadKeyIndex with V[x] recorded (D13). -/
def Obligations.KeySkipsTestTheKeyLevel : Prop :=
  ∀ (x : Reg) (s : State),
    (encode (.skp x)).toNat = 0xE09E + x.val * 256 ∧ (encode (.sknp x)).toNat = 0xE0A1 + x.val * 256 ∧
    (∀ k : Reg, (s.reg x).toNat = k.val →
      (∃ t, Sys2Proof.Machine.exec (.skp x) s = .next t ∧
        t.pc = (if s.key k = true then s.pc + 4 else s.pc + 2) ∧ OnlyChanges s t (fun p => p = .pc)) ∧
      (∃ t, Sys2Proof.Machine.exec (.sknp x) s = .next t ∧
        t.pc = (if s.key k = false then s.pc + 4 else s.pc + 2) ∧ OnlyChanges s t (fun p => p = .pc))) ∧
    ((s.reg x).toNat > 15 →
      (∃ t, Sys2Proof.Machine.exec (.skp x) s = .next t ∧
        RaisedOnly s t .badKeyIndex (encode (.skp x)) ((s.reg x).setWidth 16)) ∧
      (∃ t, Sys2Proof.Machine.exec (.sknp x) s = .next t ∧
        RaisedOnly s t .badKeyIndex (encode (.sknp x)) ((s.reg x).setWidth 16)))

/-- LD_VX_KEY (45_keypad.md, the state table): idle with no key held, nothing changes; idle with keys held, the least is latched (the
spec's own choice, D14); waiting for a key still held, nothing changes; waiting for a key no longer held, V[x] takes its index,
the latch clears and pc moves on. -/
def Obligations.KeyWaitFollowsItsStateTable : Prop :=
  ∀ (x : Reg) (s : State), (encode (.ldVxKey x)).toNat = 0xF00A + x.val * 256 ∧
    (s.kw = none → (∀ k, s.key k = false) →
      ∃ t, Sys2Proof.Machine.exec (.ldVxKey x) s = .next t ∧ OnlyChanges s t (fun _ => False)) ∧
    (∀ k, s.kw = none → s.key k = true → (∀ j, j < k → s.key j = false) →
      ∃ t, Sys2Proof.Machine.exec (.ldVxKey x) s = .next t ∧ t.kw = some k ∧ OnlyChanges s t (fun p => p = .keyWait)) ∧
    (∀ k, s.kw = some k → s.key k = true →
      ∃ t, Sys2Proof.Machine.exec (.ldVxKey x) s = .next t ∧ OnlyChanges s t (fun _ => False)) ∧
    (∀ k, s.kw = some k → s.key k = false →
      ∃ t, Sys2Proof.Machine.exec (.ldVxKey x) s = .next t ∧ (t.reg x).toNat = k.val ∧ t.kw = none ∧
        t.pc = s.pc + 2 ∧ OnlyChanges s t (fun p => p = .reg x ∨ p = .keyWait ∨ p = .pc))

/-! ### Timers -/

/-- R200, R201: LD_VX_DT reads the delay timer, LD_DT_VX replaces it. -/
def Obligations.DelayTimerIsReadAndSet : Prop :=
  ∀ (x : Reg) (s : State),
    ((encode (.ldVxDt x)).toNat = 0xF007 + x.val * 256 ∧
      ∃ t, Sys2Proof.Machine.exec (.ldVxDt x) s = .next t ∧ t.reg x = s.dt ∧ t.pc = s.pc + 2 ∧
        OnlyChanges s t (fun p => p = .reg x ∨ p = .pc)) ∧
    ((encode (.ldDtVx x)).toNat = 0xF015 + x.val * 256 ∧
      ∃ t, Sys2Proof.Machine.exec (.ldDtVx x) s = .next t ∧ t.dt = s.reg x ∧ t.pc = s.pc + 2 ∧
        OnlyChanges s t (fun p => p = .delay ∨ p = .pc))

/-- LD_ST_VX (46_timers.md): the sound timer takes V[x]; BEEP is not written (D16). -/
def Obligations.SoundTimerIsSetAndBeepWaits : Prop :=
  ∀ (x : Reg) (s : State), (encode (.ldStVx x)).toNat = 0xF018 + x.val * 256 ∧
    ∃ t, Sys2Proof.Machine.exec (.ldStVx x) s = .next t ∧ t.st = s.reg x ∧ t.pc = s.pc + 2 ∧ t.beep = s.beep ∧
      OnlyChanges s t (fun p => p = .sound ∨ p = .pc)

/-! ### The invariant -/

/-- The reset state meets the invariant. -/
def Obligations.ResetMeetsTheInvariant : Prop := State.reset.Inv

/-- Every step, whatever the event and the instruction, keeps the invariant: memory canonical, the stack of STACK_DEPTH slots with
SP a depth of it (10_state.md section 5), live return addresses at most 0x1000 and pc at most 0x10FE (10_state.md section 4, the
spec's inference), FAULT all zero while no fault is recorded (section 8). -/
def Obligations.StepKeepsTheInvariant : Prop :=
  ∀ (s t : State), s.Inv → Sys2Proof.Machine.step s = .next t → t.Inv

/-! ### The host's event sequence (00_scope.md section 4) -/

/-- A step is the host's next event, whole: the first lined up; with none lined up, the first of the events the source repeats, or
the source's next free event, which is any event (00_scope.md section 4; how the events stand in the state is log entries 2
and 16). -/
def Obligations.StepDoesTheNextEvent : Prop :=
  ∀ s : State,
    (∀ e others, s.host.events.pending = e :: others →
      Sys2Proof.Machine.step s = hostEvent e (s.withEvents others)) ∧
    (∀ e others, s.host.events = { pending := [], later := .repeating e others } →
      Sys2Proof.Machine.step s = hostEvent e (s.withEvents others)) ∧
    (∀ stream k, s.host.events = { pending := [], later := .free stream k } →
      Sys2Proof.Machine.step s = hostEvent (Config.freeEvent stream k) (s.withSource (.free stream (k + 1))))

/-- A run of any length does the host's events in order: n steps answer a state whose queue is without its first n events, and the
step after them does, at that state with the event taken, the event that comes next in the first state's queue after n
(00_scope.md section 4; the queue is the model's, log entries 2 and 16). -/
def Obligations.RunTakesTheEventsInOrder : Prop :=
  ∀ (n : Nat) (s : State), ∃ t, Host.Core.run Sys2Proof.core n s = .next t ∧ t.host.events = s.host.events.drop n ∧
    Host.Core.run Sys2Proof.core (n + 1) s = hostEvent (s.host.events.drop n).next t.takeEvent

/-- Recurring events recur for ever: with a source that repeats e, others, the queue is the same again after every m rounds, each of
which does those events in that order (00_scope.md section 4; the queue is the model's, log entry 2). -/
def Obligations.RecurringEventsRecurForEver : Prop :=
  ∀ (m : Nat) (e : HostEvent) (others : List HostEvent) (s : State),
    s.host.events = { pending := [], later := .repeating e others } →
    s.host.events.first (others.length + 1) = e :: others ∧
    ∃ t, Host.Core.run Sys2Proof.core (m * (others.length + 1)) s = .next t ∧ t.host.events = s.host.events

/-- A model takes an arbitrary finite or infinite sequence of events (00_scope.md section 4; D2): every infinite sequence has a run
from every state, each state of it the step's answer to the event presented then; and lining up any finite part of the sequence
beforehand gives the same states. -/
def Obligations.EveryEventSequenceHasItsRun : Prop :=
  ∀ (e : Nat → HostEvent) (s : State), ∃ states : Nat → State, states 0 = s.withEvents [] ∧
    (∀ n, Sys2Proof.Machine.step ((states n).withEvents [e n]) = .next (states (n + 1))) ∧
    ∀ n, Host.Core.run Sys2Proof.core n (s.withEvents ((List.range n).map e)) = .next (states n)
end

