-- ==== Sys2Proof/Laws/Decode.lean ====
section
/-!
SUPPORT. Bit fields, bytes and words: what the fields of an encoded word are, and that a word survives its two bytes.
-/

namespace Sys2Proof

theorem toNat_encodeA (op : Nat) (nnn : Addr12) (h : op < 16) : (encodeA op nnn).toNat = op * 0x1000 + nnn.toNat := by
  have := nnn.isLt
  rw [encodeA, BitVec.toNat_ofNat, Nat.mod_eq_of_lt (by omega)]

theorem toNat_encodeXI (op : Nat) (x : Reg) (nn : Byte) (h : op < 16) :
    (encodeXI op x nn).toNat = op * 0x1000 + x.val * 0x100 + nn.toNat := by
  have := x.isLt
  have := nn.isLt
  rw [encodeXI, BitVec.toNat_ofNat, Nat.mod_eq_of_lt (by omega)]

theorem toNat_encodeXYN (op : Nat) (x y : Reg) (low : Nat) (h : op < 16) (hl : low < 16) :
    (encodeXYN op x y low).toNat = op * 0x1000 + x.val * 0x100 + y.val * 0x10 + low := by
  have := x.isLt
  have := y.isLt
  rw [encodeXYN, BitVec.toNat_ofNat, Nat.mod_eq_of_lt (by omega)]

theorem toNat_encodeXF (op : Nat) (x : Reg) (func : Nat) (h : op < 16) (hf : func < 256) :
    (encodeXF op x func).toNat = op * 0x1000 + x.val * 0x100 + func := by
  have := x.isLt
  rw [encodeXF, BitVec.toNat_ofNat, Nat.mod_eq_of_lt (by omega)]

/-! ### The fields as arithmetic on the word -/

theorem field_15_12 (w : Word) : field w 15 12 = w.toNat / 4096 := by
  have := w.isLt
  simp only [field]
  omega

theorem field_11_8 (w : Word) : field w 11 8 = w.toNat / 256 % 16 := rfl
theorem field_7_4 (w : Word) : field w 7 4 = w.toNat / 16 % 16 := rfl
theorem field_3_0 (w : Word) : field w 3 0 = w.toNat % 16 := by simp [field]
theorem field_7_0 (w : Word) : field w 7 0 = w.toNat % 256 := by simp [field]
theorem field_11_0 (w : Word) : field w 11 0 = w.toNat % 4096 := by simp [field]

theorem fieldX_eq {w : Word} {x : Reg} (h : w.toNat / 256 % 16 = x.val) : fieldX w = x :=
  Fin.ext (by rw [fieldX, Fin.val_ofNat, field_11_8, h, Nat.mod_eq_of_lt x.isLt])

theorem fieldY_eq {w : Word} {y : Reg} (h : w.toNat / 16 % 16 = y.val) : fieldY w = y :=
  Fin.ext (by rw [fieldY, Fin.val_ofNat, field_7_4, h, Nat.mod_eq_of_lt y.isLt])

theorem fieldNn_eq {w : Word} {nn : Byte} (h : w.toNat % 256 = nn.toNat) : fieldNn w = nn :=
  BitVec.eq_of_toNat_eq (by rw [fieldNn, BitVec.toNat_ofNat, field_7_0, h, Nat.mod_eq_of_lt nn.isLt])

theorem fieldNnn_eq {w : Word} {nnn : Addr12} (h : w.toNat % 4096 = nnn.toNat) : fieldNnn w = nnn :=
  BitVec.eq_of_toNat_eq (by rw [fieldNnn, BitVec.toNat_ofNat, field_11_0, h, Nat.mod_eq_of_lt nnn.isLt])

theorem fieldN_eq {w : Word} {n : Nibble} (h : w.toNat % 16 = n.toNat) : fieldN w = n :=
  BitVec.eq_of_toNat_eq (by rw [fieldN, BitVec.toNat_ofNat, field_3_0, h, Nat.mod_eq_of_lt n.isLt])

theorem val_fieldX (w : Word) : (fieldX w).val = w.toNat / 256 % 16 := by
  rw [fieldX, Fin.val_ofNat, field_11_8, Nat.mod_mod]

theorem val_fieldY (w : Word) : (fieldY w).val = w.toNat / 16 % 16 := by
  rw [fieldY, Fin.val_ofNat, field_7_4, Nat.mod_mod]

theorem toNat_fieldNn (w : Word) : (fieldNn w).toNat = w.toNat % 256 := by
  rw [fieldNn, BitVec.toNat_ofNat, field_7_0]; omega

theorem toNat_fieldNnn (w : Word) : (fieldNnn w).toNat = w.toNat % 4096 := by
  rw [fieldNnn, BitVec.toNat_ofNat, field_11_0]; omega

theorem toNat_fieldN (w : Word) : (fieldN w).toNat = w.toNat % 16 := by
  rw [fieldN, BitVec.toNat_ofNat, field_3_0]; omega

/-! ### Bytes and words -/

theorem toNat_wordOfBytes (a b : Byte) : (wordOfBytes a b).toNat = a.toNat * 256 + b.toNat := by
  have := a.isLt
  have := b.isLt
  rw [wordOfBytes, BitVec.toNat_ofNat, Nat.mod_eq_of_lt (by omega)]

/-- A word stored big-endian is read back (R52). -/
@[simp] theorem wordOfBytes_high_low (w : Word) : wordOfBytes (highByte w) (lowByte w) = w := by
  have := w.isLt
  refine BitVec.eq_of_toNat_eq ?_
  rw [toNat_wordOfBytes, highByte, lowByte, BitVec.toNat_ofNat, BitVec.toNat_ofNat, field_7_0]
  simp only [field]
  omega

theorem decodeTableWord_eq (nbits w : Nat) : decodeTableWord nbits w = (decode (tableWord nbits w)).toOption := by
  rw [decodeTableWord, decodeBytes, wordOfBytes_high_low]
  cases decode (tableWord nbits w) <;> rfl

end Sys2Proof
end

