-- ==== Sys2Proof/Laws/Memory.lean ====
section
/-!
SUPPORT. The laws of memory: a read after a write, a run of bytes read back, and the canonical form kept by every operation.
-/

namespace Sys2Proof.Machine

theorem Memory.read_erase (m : Memory) (a q : Nat) :
    (m.erase a).read q = if q = a then Memory.unlisted else m.read q := by
  induction m with
  | nil => simp [Memory.erase, Memory.read]
  | cons c rest ih =>
    rw [Memory.erase] at ih ⊢
    by_cases h : c.1 = a
    · simp only [List.filter_cons, h, bne_self_eq_false, Bool.false_eq_true, if_false, ih, Memory.read]
      split_ifs <;> simp_all
    · have hb : (c.1 != a) = true := by simpa using h
      simp only [List.filter_cons, hb, if_true, Memory.read, ih]
      split_ifs <;> simp_all

theorem Memory.mem_erase {m : Memory} {a : Nat} {c : Host.Cell} : c ∈ m.erase a ↔ c ∈ m ∧ c.1 ≠ a := by
  simp [Memory.erase]

theorem Memory.read_insertCell (m : Memory) (a q : Nat) (b : Byte) (hm : ∀ c ∈ m, c.1 ≠ a) :
    (m.insertCell a b).read q = if q = a then b else m.read q := by
  induction m with
  | nil => simp [Memory.insertCell, Memory.read, eq_comm]
  | cons c rest ih =>
    have hc : c.1 ≠ a := hm c (by simp)
    have ih := ih (fun d hd => hm d (by simp [hd]))
    by_cases h2 : q = a <;> by_cases h1 : a < c.1
    · simp [Memory.insertCell, Memory.read, h1, h2]
    · rw [Memory.insertCell, if_neg h1, Memory.read, if_neg (by rwa [h2]), ih, if_pos h2, if_pos h2]
    · simp [Memory.insertCell, Memory.read, h1, h2, Ne.symm h2]
    · simp [Memory.insertCell, Memory.read, h1, ih, h2]

/-- A read after a write: the written byte there, the old one everywhere else (R57). -/
@[simp] theorem Memory.read_write (m : Memory) (a q : Nat) (b : Byte) :
    (m.write a b).read q = if q = a then b else m.read q := by
  unfold Memory.write
  split_ifs with hb hq hq
  · rw [read_erase, if_pos hq, hb]
  · rw [read_erase, if_neg hq]
  · rw [read_insertCell _ _ _ _ (fun c hc => (mem_erase.mp hc).2), if_pos hq]
  · rw [read_insertCell _ _ _ _ (fun c hc => (mem_erase.mp hc).2), if_neg hq, read_erase, if_neg hq]

/-- A run of bytes reads back byte by byte; no other address changes (R52, R57). -/
theorem Memory.read_writeList (m : Memory) (a q : Nat) (bs : List Byte) :
    (m.writeList a bs).read q = if a ≤ q then (bs[q - a]?).getD (m.read q) else m.read q := by
  induction bs generalizing m a with
  | nil => simp [Memory.writeList]
  | cons b rest ih =>
    rw [Memory.writeList, ih, read_write]
    rcases Nat.lt_trichotomy q a with h | rfl | h
    · rw [if_neg (show ¬a + 1 ≤ q by omega), if_neg (show ¬a ≤ q by omega), if_neg (show ¬q = a by omega)]
    · rw [if_neg (show ¬q + 1 ≤ q by omega), if_pos rfl, if_pos le_rfl]
      simp
    · rw [if_pos (show a + 1 ≤ q by omega), if_pos (show a ≤ q by omega), if_neg (show ¬q = a by omega),
        show q - a = (q - (a + 1)) + 1 by omega, List.getElem?_cons_succ]

theorem Memory.read_writeList_of_lt (m : Memory) (a j : Nat) (bs : List Byte) (h : j < bs.length) :
    (m.writeList a bs).read (a + j) = bs[j] := by
  rw [read_writeList, if_pos (by omega), Nat.add_sub_cancel_left, List.getElem?_eq_getElem h, Option.getD_some]

theorem Memory.read_writeList_outside (m : Memory) (a q : Nat) (bs : List Byte) (h : ∀ j, j < bs.length → q ≠ a + j) :
    (m.writeList a bs).read q = m.read q := by
  rw [read_writeList]
  split_ifs with ha
  · rw [List.getElem?_eq_none, Option.getD_none]
    by_contra hl
    exact h (q - a) (by omega) (by omega)
  · rfl

theorem Memory.mem_insertCell {m : Memory} {a : Nat} {b : Byte} {c : Host.Cell} :
    c ∈ m.insertCell a b ↔ c = (a, b) ∨ c ∈ m := by
  induction m with
  | nil => simp [Memory.insertCell]
  | cons d rest ih =>
    by_cases h : a < d.1
    · simp [Memory.insertCell, h]
    · simp [Memory.insertCell, h, ih, or_left_comm]

theorem Memory.wf_erase {m : Memory} (a : Nat) (h : m.wf) : (m.erase a).wf :=
  ⟨h.1.filter _, fun c hc => h.2 c (mem_erase.mp hc).1⟩

theorem Memory.pairwise_insertCell {m : Memory} {a : Nat} {b : Byte} (h : m.Pairwise (fun c d => c.1 < d.1))
    (hm : ∀ c ∈ m, c.1 ≠ a) : (m.insertCell a b).Pairwise (fun c d => c.1 < d.1) := by
  induction m with
  | nil => simp [Memory.insertCell]
  | cons c rest ih =>
    obtain ⟨hc, hrest⟩ := List.pairwise_cons.mp h
    by_cases hlt : a < c.1
    · rw [Memory.insertCell, if_pos hlt]
      refine List.pairwise_cons.mpr ⟨fun d hd => ?_, h⟩
      rcases List.mem_cons.mp hd with rfl | hd
      · exact hlt
      · exact hlt.trans (hc d hd)
    · rw [Memory.insertCell, if_neg hlt]
      refine List.pairwise_cons.mpr ⟨fun d hd => ?_, ih hrest (fun d hd => hm d (by simp [hd]))⟩
      rcases mem_insertCell.mp hd with rfl | hd
      · exact lt_of_le_of_ne (not_lt.mp hlt) (hm c (by simp))
      · exact hc d hd

/-- A write inside MEM keeps the canonical form. -/
theorem Memory.wf_write {m : Memory} {a : Nat} (b : Byte) (h : m.wf) (ha : a < memSize) : (m.write a b).wf := by
  unfold Memory.write
  split_ifs with hb
  · exact wf_erase a h
  · refine ⟨pairwise_insertCell (wf_erase a h).1 (fun c hc => (mem_erase.mp hc).2), fun c hc => ?_⟩
    rcases mem_insertCell.mp hc with rfl | hc
    · exact ⟨ha, hb⟩
    · exact (wf_erase a h).2 c hc

/-- A run of bytes inside MEM keeps the canonical form. -/
theorem Memory.wf_writeList {m : Memory} {a : Nat} {bs : List Byte} (h : m.wf) (ha : a + bs.length ≤ memSize) :
    (m.writeList a bs).wf := by
  induction bs generalizing m a with
  | nil => exact h
  | cons b rest ih =>
    rw [List.length_cons] at ha
    exact ih (wf_write b h (by omega)) (by omega)

@[simp] theorem Memory.length_readList (m : Memory) (a len : Nat) : (m.readList a len).length = len := by
  simp [Memory.readList]

@[simp] theorem Memory.getElem_readList (m : Memory) (a len j : Nat) (h : j < (m.readList a len).length) :
    (m.readList a len)[j] = m.read (a + j) := by
  simp [Memory.readList]

theorem Memory.readList_succ (m : Memory) (a len : Nat) :
    m.readList a (len + 1) = m.read a :: m.readList (a + 1) len := by
  simp [Memory.readList, List.range_succ_eq_map, Function.comp_def, Nat.add_comm 1, Nat.add_assoc]

/-- The reset memory is canonical. -/
theorem Memory.wf_nil : Memory.wf [] := ⟨List.Pairwise.nil, fun _ h => absurd h List.not_mem_nil⟩

/-- Two canonical memories that read alike are equal data. -/
theorem Memory.wf_ext {m n : Memory} (hm : m.wf) (hn : n.wf) (h : ∀ a, m.read a = n.read a) : m = n := by
  have key : ∀ {m : Memory}, m.wf → ∀ c : Host.Cell, c ∈ m ↔ m.read c.1 = c.2 ∧ c.2 ≠ Memory.unlisted := by
    intro m hm c
    induction m with
    | nil => simp only [List.not_mem_nil, Memory.read, false_iff, not_and, not_not]; exact fun h => h.symm
    | cons d rest ih =>
      obtain ⟨hd, hrest⟩ := List.pairwise_cons.mp hm.1
      have ih := ih ⟨hrest, fun c hc => hm.2 c (by simp [hc])⟩
      have hdv := (hm.2 d (by simp)).2
      rw [Memory.read, List.mem_cons]
      split_ifs with he
      · constructor
        · rintro (rfl | hc)
          · exact ⟨rfl, hdv⟩
          · exact absurd (hd c hc) (by omega)
        · rintro ⟨h1, -⟩
          exact .inl (Prod.ext he.symm h1.symm)
      · rw [ih]
        exact or_iff_right (fun hcd => he (by rw [hcd]))
  have perm : ∀ c : Host.Cell, c ∈ m ↔ c ∈ n := fun c => by rw [key hm, key hn, h]
  have nodup : ∀ {m : Memory}, m.wf → m.Nodup := fun hm =>
    hm.1.imp (fun {a b} hab hne => by rw [hne] at hab; exact lt_irrefl _ hab)
  exact (List.perm_of_nodup_nodup_toFinset_eq (nodup hm) (nodup hn) (by ext c; simp [perm])).eq_of_pairwise
    (fun a b _ _ h1 h2 => absurd h1 (by omega)) hm.1 hn.1

end Sys2Proof.Machine
end

