-- ==== Sys2Proof/Laws/State.lean ====
section
/-!
SUPPORT. One lemma per field per update of State, true by rfl, and the reads of a register, a key and a stack slot through
every update; so that no later proof unfolds a record update.
-/

namespace Sys2Proof.Machine

variable (s : State)


/-! ### setReg -/

@[simp] theorem State.setReg_v (r : Reg) (b : Byte) : (s.setReg r b).v = s.v.set r b := rfl
@[simp] theorem State.setReg_iReg (r : Reg) (b : Byte) : (s.setReg r b).iReg = s.iReg := rfl
@[simp] theorem State.setReg_pc (r : Reg) (b : Byte) : (s.setReg r b).pc = s.pc := rfl
@[simp] theorem State.setReg_sp (r : Reg) (b : Byte) : (s.setReg r b).sp = s.sp := rfl
@[simp] theorem State.setReg_stack (r : Reg) (b : Byte) : (s.setReg r b).stack = s.stack := rfl
@[simp] theorem State.setReg_mem (r : Reg) (b : Byte) : (s.setReg r b).mem = s.mem := rfl
@[simp] theorem State.setReg_fb (r : Reg) (b : Byte) : (s.setReg r b).fb = s.fb := rfl
@[simp] theorem State.setReg_keys (r : Reg) (b : Byte) : (s.setReg r b).keys = s.keys := rfl
@[simp] theorem State.setReg_dt (r : Reg) (b : Byte) : (s.setReg r b).dt = s.dt := rfl
@[simp] theorem State.setReg_st (r : Reg) (b : Byte) : (s.setReg r b).st = s.st := rfl
@[simp] theorem State.setReg_beep (r : Reg) (b : Byte) : (s.setReg r b).beep = s.beep := rfl
@[simp] theorem State.setReg_fault (r : Reg) (b : Byte) : (s.setReg r b).fault = s.fault := rfl
@[simp] theorem State.setReg_kw (r : Reg) (b : Byte) : (s.setReg r b).kw = s.kw := rfl
@[simp] theorem State.setReg_config (r : Reg) (b : Byte) : (s.setReg r b).config = s.config := rfl
@[simp] theorem State.setReg_host (r : Reg) (b : Byte) : (s.setReg r b).host = s.host := rfl

/-! ### setIndex -/

@[simp] theorem State.setIndex_v (w : Word) : (s.setIndex w).v = s.v := rfl
@[simp] theorem State.setIndex_iReg (w : Word) : (s.setIndex w).iReg = w := rfl
@[simp] theorem State.setIndex_pc (w : Word) : (s.setIndex w).pc = s.pc := rfl
@[simp] theorem State.setIndex_sp (w : Word) : (s.setIndex w).sp = s.sp := rfl
@[simp] theorem State.setIndex_stack (w : Word) : (s.setIndex w).stack = s.stack := rfl
@[simp] theorem State.setIndex_mem (w : Word) : (s.setIndex w).mem = s.mem := rfl
@[simp] theorem State.setIndex_fb (w : Word) : (s.setIndex w).fb = s.fb := rfl
@[simp] theorem State.setIndex_keys (w : Word) : (s.setIndex w).keys = s.keys := rfl
@[simp] theorem State.setIndex_dt (w : Word) : (s.setIndex w).dt = s.dt := rfl
@[simp] theorem State.setIndex_st (w : Word) : (s.setIndex w).st = s.st := rfl
@[simp] theorem State.setIndex_beep (w : Word) : (s.setIndex w).beep = s.beep := rfl
@[simp] theorem State.setIndex_fault (w : Word) : (s.setIndex w).fault = s.fault := rfl
@[simp] theorem State.setIndex_kw (w : Word) : (s.setIndex w).kw = s.kw := rfl
@[simp] theorem State.setIndex_config (w : Word) : (s.setIndex w).config = s.config := rfl
@[simp] theorem State.setIndex_host (w : Word) : (s.setIndex w).host = s.host := rfl

/-! ### setPc -/

@[simp] theorem State.setPc_v (w : Word) : (s.setPc w).v = s.v := rfl
@[simp] theorem State.setPc_iReg (w : Word) : (s.setPc w).iReg = s.iReg := rfl
@[simp] theorem State.setPc_pc (w : Word) : (s.setPc w).pc = w := rfl
@[simp] theorem State.setPc_sp (w : Word) : (s.setPc w).sp = s.sp := rfl
@[simp] theorem State.setPc_stack (w : Word) : (s.setPc w).stack = s.stack := rfl
@[simp] theorem State.setPc_mem (w : Word) : (s.setPc w).mem = s.mem := rfl
@[simp] theorem State.setPc_fb (w : Word) : (s.setPc w).fb = s.fb := rfl
@[simp] theorem State.setPc_keys (w : Word) : (s.setPc w).keys = s.keys := rfl
@[simp] theorem State.setPc_dt (w : Word) : (s.setPc w).dt = s.dt := rfl
@[simp] theorem State.setPc_st (w : Word) : (s.setPc w).st = s.st := rfl
@[simp] theorem State.setPc_beep (w : Word) : (s.setPc w).beep = s.beep := rfl
@[simp] theorem State.setPc_fault (w : Word) : (s.setPc w).fault = s.fault := rfl
@[simp] theorem State.setPc_kw (w : Word) : (s.setPc w).kw = s.kw := rfl
@[simp] theorem State.setPc_config (w : Word) : (s.setPc w).config = s.config := rfl
@[simp] theorem State.setPc_host (w : Word) : (s.setPc w).host = s.host := rfl

/-! ### setSp -/

@[simp] theorem State.setSp_v (n : Nat) : (s.setSp n).v = s.v := rfl
@[simp] theorem State.setSp_iReg (n : Nat) : (s.setSp n).iReg = s.iReg := rfl
@[simp] theorem State.setSp_pc (n : Nat) : (s.setSp n).pc = s.pc := rfl
@[simp] theorem State.setSp_sp (n : Nat) : (s.setSp n).sp = n := rfl
@[simp] theorem State.setSp_stack (n : Nat) : (s.setSp n).stack = s.stack := rfl
@[simp] theorem State.setSp_mem (n : Nat) : (s.setSp n).mem = s.mem := rfl
@[simp] theorem State.setSp_fb (n : Nat) : (s.setSp n).fb = s.fb := rfl
@[simp] theorem State.setSp_keys (n : Nat) : (s.setSp n).keys = s.keys := rfl
@[simp] theorem State.setSp_dt (n : Nat) : (s.setSp n).dt = s.dt := rfl
@[simp] theorem State.setSp_st (n : Nat) : (s.setSp n).st = s.st := rfl
@[simp] theorem State.setSp_beep (n : Nat) : (s.setSp n).beep = s.beep := rfl
@[simp] theorem State.setSp_fault (n : Nat) : (s.setSp n).fault = s.fault := rfl
@[simp] theorem State.setSp_kw (n : Nat) : (s.setSp n).kw = s.kw := rfl
@[simp] theorem State.setSp_config (n : Nat) : (s.setSp n).config = s.config := rfl
@[simp] theorem State.setSp_host (n : Nat) : (s.setSp n).host = s.host := rfl

/-! ### setSlot -/

@[simp] theorem State.setSlot_v (j : Nat) (w : Word) : (s.setSlot j w).v = s.v := rfl
@[simp] theorem State.setSlot_iReg (j : Nat) (w : Word) : (s.setSlot j w).iReg = s.iReg := rfl
@[simp] theorem State.setSlot_pc (j : Nat) (w : Word) : (s.setSlot j w).pc = s.pc := rfl
@[simp] theorem State.setSlot_sp (j : Nat) (w : Word) : (s.setSlot j w).sp = s.sp := rfl
@[simp] theorem State.setSlot_stack (j : Nat) (w : Word) : (s.setSlot j w).stack = s.stack.set j w := rfl
@[simp] theorem State.setSlot_mem (j : Nat) (w : Word) : (s.setSlot j w).mem = s.mem := rfl
@[simp] theorem State.setSlot_fb (j : Nat) (w : Word) : (s.setSlot j w).fb = s.fb := rfl
@[simp] theorem State.setSlot_keys (j : Nat) (w : Word) : (s.setSlot j w).keys = s.keys := rfl
@[simp] theorem State.setSlot_dt (j : Nat) (w : Word) : (s.setSlot j w).dt = s.dt := rfl
@[simp] theorem State.setSlot_st (j : Nat) (w : Word) : (s.setSlot j w).st = s.st := rfl
@[simp] theorem State.setSlot_beep (j : Nat) (w : Word) : (s.setSlot j w).beep = s.beep := rfl
@[simp] theorem State.setSlot_fault (j : Nat) (w : Word) : (s.setSlot j w).fault = s.fault := rfl
@[simp] theorem State.setSlot_kw (j : Nat) (w : Word) : (s.setSlot j w).kw = s.kw := rfl
@[simp] theorem State.setSlot_config (j : Nat) (w : Word) : (s.setSlot j w).config = s.config := rfl
@[simp] theorem State.setSlot_host (j : Nat) (w : Word) : (s.setSlot j w).host = s.host := rfl

/-! ### setMem -/

@[simp] theorem State.setMem_v (m : Memory) : (s.setMem m).v = s.v := rfl
@[simp] theorem State.setMem_iReg (m : Memory) : (s.setMem m).iReg = s.iReg := rfl
@[simp] theorem State.setMem_pc (m : Memory) : (s.setMem m).pc = s.pc := rfl
@[simp] theorem State.setMem_sp (m : Memory) : (s.setMem m).sp = s.sp := rfl
@[simp] theorem State.setMem_stack (m : Memory) : (s.setMem m).stack = s.stack := rfl
@[simp] theorem State.setMem_mem (m : Memory) : (s.setMem m).mem = m := rfl
@[simp] theorem State.setMem_fb (m : Memory) : (s.setMem m).fb = s.fb := rfl
@[simp] theorem State.setMem_keys (m : Memory) : (s.setMem m).keys = s.keys := rfl
@[simp] theorem State.setMem_dt (m : Memory) : (s.setMem m).dt = s.dt := rfl
@[simp] theorem State.setMem_st (m : Memory) : (s.setMem m).st = s.st := rfl
@[simp] theorem State.setMem_beep (m : Memory) : (s.setMem m).beep = s.beep := rfl
@[simp] theorem State.setMem_fault (m : Memory) : (s.setMem m).fault = s.fault := rfl
@[simp] theorem State.setMem_kw (m : Memory) : (s.setMem m).kw = s.kw := rfl
@[simp] theorem State.setMem_config (m : Memory) : (s.setMem m).config = s.config := rfl
@[simp] theorem State.setMem_host (m : Memory) : (s.setMem m).host = s.host := rfl

/-! ### setFb -/

@[simp] theorem State.setFb_v (fb : FrameBuffer) : (s.setFb fb).v = s.v := rfl
@[simp] theorem State.setFb_iReg (fb : FrameBuffer) : (s.setFb fb).iReg = s.iReg := rfl
@[simp] theorem State.setFb_pc (fb : FrameBuffer) : (s.setFb fb).pc = s.pc := rfl
@[simp] theorem State.setFb_sp (fb : FrameBuffer) : (s.setFb fb).sp = s.sp := rfl
@[simp] theorem State.setFb_stack (fb : FrameBuffer) : (s.setFb fb).stack = s.stack := rfl
@[simp] theorem State.setFb_mem (fb : FrameBuffer) : (s.setFb fb).mem = s.mem := rfl
@[simp] theorem State.setFb_fb (fb : FrameBuffer) : (s.setFb fb).fb = fb := rfl
@[simp] theorem State.setFb_keys (fb : FrameBuffer) : (s.setFb fb).keys = s.keys := rfl
@[simp] theorem State.setFb_dt (fb : FrameBuffer) : (s.setFb fb).dt = s.dt := rfl
@[simp] theorem State.setFb_st (fb : FrameBuffer) : (s.setFb fb).st = s.st := rfl
@[simp] theorem State.setFb_beep (fb : FrameBuffer) : (s.setFb fb).beep = s.beep := rfl
@[simp] theorem State.setFb_fault (fb : FrameBuffer) : (s.setFb fb).fault = s.fault := rfl
@[simp] theorem State.setFb_kw (fb : FrameBuffer) : (s.setFb fb).kw = s.kw := rfl
@[simp] theorem State.setFb_config (fb : FrameBuffer) : (s.setFb fb).config = s.config := rfl
@[simp] theorem State.setFb_host (fb : FrameBuffer) : (s.setFb fb).host = s.host := rfl

/-! ### putKey -/

@[simp] theorem State.putKey_v (k : Reg) (l : Bool) : (s.putKey k l).v = s.v := rfl
@[simp] theorem State.putKey_iReg (k : Reg) (l : Bool) : (s.putKey k l).iReg = s.iReg := rfl
@[simp] theorem State.putKey_pc (k : Reg) (l : Bool) : (s.putKey k l).pc = s.pc := rfl
@[simp] theorem State.putKey_sp (k : Reg) (l : Bool) : (s.putKey k l).sp = s.sp := rfl
@[simp] theorem State.putKey_stack (k : Reg) (l : Bool) : (s.putKey k l).stack = s.stack := rfl
@[simp] theorem State.putKey_mem (k : Reg) (l : Bool) : (s.putKey k l).mem = s.mem := rfl
@[simp] theorem State.putKey_fb (k : Reg) (l : Bool) : (s.putKey k l).fb = s.fb := rfl
@[simp] theorem State.putKey_keys (k : Reg) (l : Bool) : (s.putKey k l).keys = s.keys.set k l := rfl
@[simp] theorem State.putKey_dt (k : Reg) (l : Bool) : (s.putKey k l).dt = s.dt := rfl
@[simp] theorem State.putKey_st (k : Reg) (l : Bool) : (s.putKey k l).st = s.st := rfl
@[simp] theorem State.putKey_beep (k : Reg) (l : Bool) : (s.putKey k l).beep = s.beep := rfl
@[simp] theorem State.putKey_fault (k : Reg) (l : Bool) : (s.putKey k l).fault = s.fault := rfl
@[simp] theorem State.putKey_kw (k : Reg) (l : Bool) : (s.putKey k l).kw = s.kw := rfl
@[simp] theorem State.putKey_config (k : Reg) (l : Bool) : (s.putKey k l).config = s.config := rfl
@[simp] theorem State.putKey_host (k : Reg) (l : Bool) : (s.putKey k l).host = s.host := rfl

/-! ### setDt -/

@[simp] theorem State.setDt_v (b : Byte) : (s.setDt b).v = s.v := rfl
@[simp] theorem State.setDt_iReg (b : Byte) : (s.setDt b).iReg = s.iReg := rfl
@[simp] theorem State.setDt_pc (b : Byte) : (s.setDt b).pc = s.pc := rfl
@[simp] theorem State.setDt_sp (b : Byte) : (s.setDt b).sp = s.sp := rfl
@[simp] theorem State.setDt_stack (b : Byte) : (s.setDt b).stack = s.stack := rfl
@[simp] theorem State.setDt_mem (b : Byte) : (s.setDt b).mem = s.mem := rfl
@[simp] theorem State.setDt_fb (b : Byte) : (s.setDt b).fb = s.fb := rfl
@[simp] theorem State.setDt_keys (b : Byte) : (s.setDt b).keys = s.keys := rfl
@[simp] theorem State.setDt_dt (b : Byte) : (s.setDt b).dt = b := rfl
@[simp] theorem State.setDt_st (b : Byte) : (s.setDt b).st = s.st := rfl
@[simp] theorem State.setDt_beep (b : Byte) : (s.setDt b).beep = s.beep := rfl
@[simp] theorem State.setDt_fault (b : Byte) : (s.setDt b).fault = s.fault := rfl
@[simp] theorem State.setDt_kw (b : Byte) : (s.setDt b).kw = s.kw := rfl
@[simp] theorem State.setDt_config (b : Byte) : (s.setDt b).config = s.config := rfl
@[simp] theorem State.setDt_host (b : Byte) : (s.setDt b).host = s.host := rfl

/-! ### setSt -/

@[simp] theorem State.setSt_v (b : Byte) : (s.setSt b).v = s.v := rfl
@[simp] theorem State.setSt_iReg (b : Byte) : (s.setSt b).iReg = s.iReg := rfl
@[simp] theorem State.setSt_pc (b : Byte) : (s.setSt b).pc = s.pc := rfl
@[simp] theorem State.setSt_sp (b : Byte) : (s.setSt b).sp = s.sp := rfl
@[simp] theorem State.setSt_stack (b : Byte) : (s.setSt b).stack = s.stack := rfl
@[simp] theorem State.setSt_mem (b : Byte) : (s.setSt b).mem = s.mem := rfl
@[simp] theorem State.setSt_fb (b : Byte) : (s.setSt b).fb = s.fb := rfl
@[simp] theorem State.setSt_keys (b : Byte) : (s.setSt b).keys = s.keys := rfl
@[simp] theorem State.setSt_dt (b : Byte) : (s.setSt b).dt = s.dt := rfl
@[simp] theorem State.setSt_st (b : Byte) : (s.setSt b).st = b := rfl
@[simp] theorem State.setSt_beep (b : Byte) : (s.setSt b).beep = s.beep := rfl
@[simp] theorem State.setSt_fault (b : Byte) : (s.setSt b).fault = s.fault := rfl
@[simp] theorem State.setSt_kw (b : Byte) : (s.setSt b).kw = s.kw := rfl
@[simp] theorem State.setSt_config (b : Byte) : (s.setSt b).config = s.config := rfl
@[simp] theorem State.setSt_host (b : Byte) : (s.setSt b).host = s.host := rfl

/-! ### setBeep -/

@[simp] theorem State.setBeep_v (l : Bool) : (s.setBeep l).v = s.v := rfl
@[simp] theorem State.setBeep_iReg (l : Bool) : (s.setBeep l).iReg = s.iReg := rfl
@[simp] theorem State.setBeep_pc (l : Bool) : (s.setBeep l).pc = s.pc := rfl
@[simp] theorem State.setBeep_sp (l : Bool) : (s.setBeep l).sp = s.sp := rfl
@[simp] theorem State.setBeep_stack (l : Bool) : (s.setBeep l).stack = s.stack := rfl
@[simp] theorem State.setBeep_mem (l : Bool) : (s.setBeep l).mem = s.mem := rfl
@[simp] theorem State.setBeep_fb (l : Bool) : (s.setBeep l).fb = s.fb := rfl
@[simp] theorem State.setBeep_keys (l : Bool) : (s.setBeep l).keys = s.keys := rfl
@[simp] theorem State.setBeep_dt (l : Bool) : (s.setBeep l).dt = s.dt := rfl
@[simp] theorem State.setBeep_st (l : Bool) : (s.setBeep l).st = s.st := rfl
@[simp] theorem State.setBeep_beep (l : Bool) : (s.setBeep l).beep = l := rfl
@[simp] theorem State.setBeep_fault (l : Bool) : (s.setBeep l).fault = s.fault := rfl
@[simp] theorem State.setBeep_kw (l : Bool) : (s.setBeep l).kw = s.kw := rfl
@[simp] theorem State.setBeep_config (l : Bool) : (s.setBeep l).config = s.config := rfl
@[simp] theorem State.setBeep_host (l : Bool) : (s.setBeep l).host = s.host := rfl

/-! ### setFault -/

@[simp] theorem State.setFault_v (r : FaultRecord) : (s.setFault r).v = s.v := rfl
@[simp] theorem State.setFault_iReg (r : FaultRecord) : (s.setFault r).iReg = s.iReg := rfl
@[simp] theorem State.setFault_pc (r : FaultRecord) : (s.setFault r).pc = s.pc := rfl
@[simp] theorem State.setFault_sp (r : FaultRecord) : (s.setFault r).sp = s.sp := rfl
@[simp] theorem State.setFault_stack (r : FaultRecord) : (s.setFault r).stack = s.stack := rfl
@[simp] theorem State.setFault_mem (r : FaultRecord) : (s.setFault r).mem = s.mem := rfl
@[simp] theorem State.setFault_fb (r : FaultRecord) : (s.setFault r).fb = s.fb := rfl
@[simp] theorem State.setFault_keys (r : FaultRecord) : (s.setFault r).keys = s.keys := rfl
@[simp] theorem State.setFault_dt (r : FaultRecord) : (s.setFault r).dt = s.dt := rfl
@[simp] theorem State.setFault_st (r : FaultRecord) : (s.setFault r).st = s.st := rfl
@[simp] theorem State.setFault_beep (r : FaultRecord) : (s.setFault r).beep = s.beep := rfl
@[simp] theorem State.setFault_fault (r : FaultRecord) : (s.setFault r).fault = r := rfl
@[simp] theorem State.setFault_kw (r : FaultRecord) : (s.setFault r).kw = s.kw := rfl
@[simp] theorem State.setFault_config (r : FaultRecord) : (s.setFault r).config = s.config := rfl
@[simp] theorem State.setFault_host (r : FaultRecord) : (s.setFault r).host = s.host := rfl

/-! ### setKw -/

@[simp] theorem State.setKw_v (k : Option Reg) : (s.setKw k).v = s.v := rfl
@[simp] theorem State.setKw_iReg (k : Option Reg) : (s.setKw k).iReg = s.iReg := rfl
@[simp] theorem State.setKw_pc (k : Option Reg) : (s.setKw k).pc = s.pc := rfl
@[simp] theorem State.setKw_sp (k : Option Reg) : (s.setKw k).sp = s.sp := rfl
@[simp] theorem State.setKw_stack (k : Option Reg) : (s.setKw k).stack = s.stack := rfl
@[simp] theorem State.setKw_mem (k : Option Reg) : (s.setKw k).mem = s.mem := rfl
@[simp] theorem State.setKw_fb (k : Option Reg) : (s.setKw k).fb = s.fb := rfl
@[simp] theorem State.setKw_keys (k : Option Reg) : (s.setKw k).keys = s.keys := rfl
@[simp] theorem State.setKw_dt (k : Option Reg) : (s.setKw k).dt = s.dt := rfl
@[simp] theorem State.setKw_st (k : Option Reg) : (s.setKw k).st = s.st := rfl
@[simp] theorem State.setKw_beep (k : Option Reg) : (s.setKw k).beep = s.beep := rfl
@[simp] theorem State.setKw_fault (k : Option Reg) : (s.setKw k).fault = s.fault := rfl
@[simp] theorem State.setKw_kw (k : Option Reg) : (s.setKw k).kw = k := rfl
@[simp] theorem State.setKw_config (k : Option Reg) : (s.setKw k).config = s.config := rfl
@[simp] theorem State.setKw_host (k : Option Reg) : (s.setKw k).host = s.host := rfl

/-! ### setHost -/

@[simp] theorem State.setHost_v (h : HostSide) : (s.setHost h).v = s.v := rfl
@[simp] theorem State.setHost_iReg (h : HostSide) : (s.setHost h).iReg = s.iReg := rfl
@[simp] theorem State.setHost_pc (h : HostSide) : (s.setHost h).pc = s.pc := rfl
@[simp] theorem State.setHost_sp (h : HostSide) : (s.setHost h).sp = s.sp := rfl
@[simp] theorem State.setHost_stack (h : HostSide) : (s.setHost h).stack = s.stack := rfl
@[simp] theorem State.setHost_mem (h : HostSide) : (s.setHost h).mem = s.mem := rfl
@[simp] theorem State.setHost_fb (h : HostSide) : (s.setHost h).fb = s.fb := rfl
@[simp] theorem State.setHost_keys (h : HostSide) : (s.setHost h).keys = s.keys := rfl
@[simp] theorem State.setHost_dt (h : HostSide) : (s.setHost h).dt = s.dt := rfl
@[simp] theorem State.setHost_st (h : HostSide) : (s.setHost h).st = s.st := rfl
@[simp] theorem State.setHost_beep (h : HostSide) : (s.setHost h).beep = s.beep := rfl
@[simp] theorem State.setHost_fault (h : HostSide) : (s.setHost h).fault = s.fault := rfl
@[simp] theorem State.setHost_kw (h : HostSide) : (s.setHost h).kw = s.kw := rfl
@[simp] theorem State.setHost_config (h : HostSide) : (s.setHost h).config = s.config := rfl
@[simp] theorem State.setHost_host (h : HostSide) : (s.setHost h).host = h := rfl

/-! ### Reading a register, a key and a slot through an update -/

@[simp] theorem State.reg_setReg (r q : Reg) (b : Byte) : (s.setReg r b).reg q = if q = r then b else s.reg q := by
  simp only [State.reg, State.setReg, Fin.getElem_fin, Vector.getElem_set, Fin.val_inj, eq_comm]

@[simp] theorem State.key_putKey (k q : Reg) (l : Bool) : (s.putKey k l).key q = if q = k then l else s.key q := by
  simp only [State.key, State.putKey, Fin.getElem_fin, Vector.getElem_set, Fin.val_inj, eq_comm]

theorem State.slot_setSlot (j k : Nat) (w : Word) :
    (s.setSlot j w).slot k = if k = j ∧ j < s.stack.length then w else s.slot k := by
  simp only [State.slot, State.setSlot, List.getD_eq_getElem?_getD, List.getElem?_set]
  split_ifs <;> simp_all

@[simp] theorem State.key_setReg (q : Reg) (r : Reg) (b : Byte) : (s.setReg r b).key q = s.key q := rfl
@[simp] theorem State.slot_setReg (q : Nat) (r : Reg) (b : Byte) : (s.setReg r b).slot q = s.slot q := rfl
@[simp] theorem State.reg_setIndex (q : Reg) (w : Word) : (s.setIndex w).reg q = s.reg q := rfl
@[simp] theorem State.key_setIndex (q : Reg) (w : Word) : (s.setIndex w).key q = s.key q := rfl
@[simp] theorem State.slot_setIndex (q : Nat) (w : Word) : (s.setIndex w).slot q = s.slot q := rfl
@[simp] theorem State.reg_setPc (q : Reg) (w : Word) : (s.setPc w).reg q = s.reg q := rfl
@[simp] theorem State.key_setPc (q : Reg) (w : Word) : (s.setPc w).key q = s.key q := rfl
@[simp] theorem State.slot_setPc (q : Nat) (w : Word) : (s.setPc w).slot q = s.slot q := rfl
@[simp] theorem State.reg_setSp (q : Reg) (n : Nat) : (s.setSp n).reg q = s.reg q := rfl
@[simp] theorem State.key_setSp (q : Reg) (n : Nat) : (s.setSp n).key q = s.key q := rfl
@[simp] theorem State.slot_setSp (q : Nat) (n : Nat) : (s.setSp n).slot q = s.slot q := rfl
@[simp] theorem State.reg_setSlot (q : Reg) (j : Nat) (w : Word) : (s.setSlot j w).reg q = s.reg q := rfl
@[simp] theorem State.key_setSlot (q : Reg) (j : Nat) (w : Word) : (s.setSlot j w).key q = s.key q := rfl
@[simp] theorem State.reg_setMem (q : Reg) (m : Memory) : (s.setMem m).reg q = s.reg q := rfl
@[simp] theorem State.key_setMem (q : Reg) (m : Memory) : (s.setMem m).key q = s.key q := rfl
@[simp] theorem State.slot_setMem (q : Nat) (m : Memory) : (s.setMem m).slot q = s.slot q := rfl
@[simp] theorem State.reg_setFb (q : Reg) (fb : FrameBuffer) : (s.setFb fb).reg q = s.reg q := rfl
@[simp] theorem State.key_setFb (q : Reg) (fb : FrameBuffer) : (s.setFb fb).key q = s.key q := rfl
@[simp] theorem State.slot_setFb (q : Nat) (fb : FrameBuffer) : (s.setFb fb).slot q = s.slot q := rfl
@[simp] theorem State.reg_putKey (q : Reg) (k : Reg) (l : Bool) : (s.putKey k l).reg q = s.reg q := rfl
@[simp] theorem State.slot_putKey (q : Nat) (k : Reg) (l : Bool) : (s.putKey k l).slot q = s.slot q := rfl
@[simp] theorem State.reg_setDt (q : Reg) (b : Byte) : (s.setDt b).reg q = s.reg q := rfl
@[simp] theorem State.key_setDt (q : Reg) (b : Byte) : (s.setDt b).key q = s.key q := rfl
@[simp] theorem State.slot_setDt (q : Nat) (b : Byte) : (s.setDt b).slot q = s.slot q := rfl
@[simp] theorem State.reg_setSt (q : Reg) (b : Byte) : (s.setSt b).reg q = s.reg q := rfl
@[simp] theorem State.key_setSt (q : Reg) (b : Byte) : (s.setSt b).key q = s.key q := rfl
@[simp] theorem State.slot_setSt (q : Nat) (b : Byte) : (s.setSt b).slot q = s.slot q := rfl
@[simp] theorem State.reg_setBeep (q : Reg) (l : Bool) : (s.setBeep l).reg q = s.reg q := rfl
@[simp] theorem State.key_setBeep (q : Reg) (l : Bool) : (s.setBeep l).key q = s.key q := rfl
@[simp] theorem State.slot_setBeep (q : Nat) (l : Bool) : (s.setBeep l).slot q = s.slot q := rfl
@[simp] theorem State.reg_setFault (q : Reg) (r : FaultRecord) : (s.setFault r).reg q = s.reg q := rfl
@[simp] theorem State.key_setFault (q : Reg) (r : FaultRecord) : (s.setFault r).key q = s.key q := rfl
@[simp] theorem State.slot_setFault (q : Nat) (r : FaultRecord) : (s.setFault r).slot q = s.slot q := rfl
@[simp] theorem State.reg_setKw (q : Reg) (k : Option Reg) : (s.setKw k).reg q = s.reg q := rfl
@[simp] theorem State.key_setKw (q : Reg) (k : Option Reg) : (s.setKw k).key q = s.key q := rfl
@[simp] theorem State.slot_setKw (q : Nat) (k : Option Reg) : (s.setKw k).slot q = s.slot q := rfl
@[simp] theorem State.reg_setHost (q : Reg) (h : HostSide) : (s.setHost h).reg q = s.reg q := rfl
@[simp] theorem State.key_setHost (q : Reg) (h : HostSide) : (s.setHost h).key q = s.key q := rfl
@[simp] theorem State.slot_setHost (q : Nat) (h : HostSide) : (s.setHost h).slot q = s.slot q := rfl

/-! ### The updates made of others -/

@[simp] theorem State.advance_eq : s.advance = s.setPc (s.pc + 2) := rfl
@[simp] theorem State.skipIf_eq (c : Bool) : s.skipIf c = s.setPc (if c then s.pc + 4 else s.pc + 2) := rfl
@[simp] theorem State.push_eq (w : Word) : s.push w = (s.setSlot s.sp w).setSp (s.sp + 1) := rfl
@[simp] theorem State.pop_eq : s.pop = s.setSp (s.sp - 1) := rfl
@[simp] theorem State.countRnd_eq : s.countRnd = s.setHost { s.host with rndCount := s.host.rndCount + 1 } := rfl
@[simp] theorem State.setEvents_eq (q : EventQueue) : s.setEvents q = s.setHost { s.host with events := q } := rfl
@[simp] theorem State.takeEvent_eq : s.takeEvent = s.setHost { s.host with events := s.host.events.rest } := rfl
@[simp] theorem State.presentRnd_eq (b : Option Byte) : s.presentRnd b = s.setHost { s.host with rndIn := b } := rfl
@[simp] theorem State.reportLoad_eq (r : LoadResult) : s.reportLoad r = s.setHost { s.host with loadResult := r } := rfl
@[simp] theorem State.raise_eq (c : FaultCause) (o a : Word) :
    s.raise c o a = s.setFault { cause := c, pc := s.pc, opcode := o, addr := a } := rfl

end Sys2Proof.Machine
end

