-- ==== Sys2Proof/Laws/Ops.lean ====
section
/-!
SUPPORT. One lemma for each shared operation that says everything it can do: the bound check, the key-index check, the
register transfers, the least held key, the framebuffer's pixels.
-/

namespace Sys2Proof.Machine

variable (s t u : State)

/-! ### Small values -/

@[simp] theorem toNat_byteOf (n : Nat) : (byteOf n).toNat = n % 256 := BitVec.toNat_ofNat ..
@[simp] theorem toNat_wordOf (n : Nat) : (wordOf n).toNat = n % 65536 := BitVec.toNat_ofNat ..

@[simp] theorem toNat_zext16 (b : Byte) : (zext16 b).toNat = b.toNat := by
  have := b.isLt
  rw [zext16, BitVec.toNat_setWidth]; omega

@[simp] theorem toNat_zextAddr (nnn : Addr12) : (zextAddr nnn).toNat = nnn.toNat := by
  have := nnn.isLt
  rw [zextAddr, BitVec.toNat_setWidth]; omega

theorem flagByte_eq (b : Bool) : flagByte b = if b = true then 1 else 0 := rfl

/-! ### The bound check (R55) -/

theorem State.outOfRange_iff (len : Nat) : s.outOfRange len = true ↔ 0 < len ∧ s.iReg.toNat + len - 1 > 0xFFF := by
  simp [State.outOfRange]

/-- The bound check either faults, changing FAULT only, or answers the state it was given. -/
theorem State.checkRange_cases {i : Instr} {len : Nat} (h : s.checkRange i len t = .next u) :
    (s.outOfRange len = true ∧ u = s.raise .outOfBounds (encode i) s.offendingAddr) ∨ (s.outOfRange len = false ∧ u = t) := by
  unfold State.checkRange at h
  split_ifs at h with hr
  · exact .inl ⟨hr, (Host.Outcome.next.inj h).symm⟩
  · exact .inr ⟨by simpa using hr, (Host.Outcome.next.inj h).symm⟩

theorem State.checkRange_in {i : Instr} {len : Nat} (h : s.iReg.toNat + len ≤ 0x1000) :
    s.checkRange i len t = .next t := by
  rw [State.checkRange, if_neg]
  rw [State.outOfRange_iff]; omega

theorem State.checkRange_out {i : Instr} {len : Nat} (h : s.iReg.toNat + len > 0x1000) (hl : 0 < len) :
    s.checkRange i len t = .next (s.raise .outOfBounds (encode i) s.offendingAddr) := by
  rw [State.checkRange, if_pos]
  rw [State.outOfRange_iff]; omega

/-! ### The key-index check (R186 to R188) -/

theorem State.withKeyIndex_cases {i : Instr} {x : Reg} {k : Reg → State} (h : s.withKeyIndex i x k = .next u) :
    ((s.reg x).toNat > 15 ∧ u = s.raise .badKeyIndex (encode i) (zext16 (s.reg x))) ∨
      ∃ q : Reg, (s.reg x).toNat = q.val ∧ u = k q := by
  unfold State.withKeyIndex at h
  split_ifs at h with hr
  · exact .inl ⟨hr, (Host.Outcome.next.inj h).symm⟩
  · refine .inr ⟨_, ?_, (Host.Outcome.next.inj h).symm⟩
    rw [Fin.val_ofNat]; omega

theorem State.withKeyIndex_key {i : Instr} {x q : Reg} {k : Reg → State} (h : (s.reg x).toNat = q.val) :
    s.withKeyIndex i x k = .next (k q) := by
  have hq := q.isLt
  rw [State.withKeyIndex, if_neg (by omega), h, Fin.ofNat_val_eq_self]

theorem State.withKeyIndex_bad {i : Instr} {x : Reg} {k : Reg → State} (h : (s.reg x).toNat > 15) :
    s.withKeyIndex i x k = .next (s.raise .badKeyIndex (encode i) (zext16 (s.reg x))) := by
  rw [State.withKeyIndex, if_pos h]

/-! ### Register transfers (R153, R154) -/

@[simp] theorem State.length_regsUpTo (x : Reg) : (s.regsUpTo x).length = x.val + 1 := by simp [State.regsUpTo]

theorem State.getElem_regsUpTo (x j : Reg) (h : j.val < (s.regsUpTo x).length) : (s.regsUpTo x)[j.val] = s.reg j := by
  simp [State.regsUpTo]

/-- Loading registers writes V only: the registers from `j` on take the bytes in turn, the others keep their value. -/
theorem State.loadRegs_spec (j : Nat) (bs : List Byte) (h : j + bs.length ≤ 16) :
    (∃ v, s.loadRegs j bs = { s with v := v }) ∧
      ∀ q : Reg, (s.loadRegs j bs).reg q = if j ≤ q.val then (bs[q.val - j]?).getD (s.reg q) else s.reg q := by
  induction bs generalizing s j with
  | nil => exact ⟨⟨s.v, rfl⟩, fun q => by simp [State.loadRegs]⟩
  | cons b rest ih =>
    rw [List.length_cons] at h
    obtain ⟨⟨v, hv⟩, hr⟩ := ih (s.setReg (Fin.ofNat 16 j) b) (j + 1) (by omega)
    refine ⟨⟨v, by rw [State.loadRegs, hv]; rfl⟩, fun q => ?_⟩
    have hj : q = Fin.ofNat 16 j ↔ q.val = j := by
      rw [Fin.ext_iff, Fin.val_ofNat, Nat.mod_eq_of_lt (by omega)]
    rw [State.loadRegs, hr, State.reg_setReg]
    simp only [hj]
    rcases Nat.lt_trichotomy q.val j with hq | hq | hq
    · rw [if_neg (show ¬j + 1 ≤ q.val by omega), if_neg (show ¬q.val = j by omega), if_neg (show ¬j ≤ q.val by omega)]
    · rw [if_neg (show ¬j + 1 ≤ q.val by omega), if_pos hq, if_pos (show j ≤ q.val by omega), hq]
      simp
    · rw [if_pos (show j + 1 ≤ q.val by omega), if_neg (show ¬q.val = j by omega), if_pos (show j ≤ q.val by omega),
        show q.val - j = (q.val - (j + 1)) + 1 by omega, List.getElem?_cons_succ]

/-! ### The least held key (R190) -/

theorem State.leastHeld_eq_none : s.leastHeld = none ↔ ∀ k, s.key k = false := by
  simp [State.leastHeld]

theorem State.leastHeld_eq_some (k : Reg) :
    s.leastHeld = some k ↔ s.key k = true ∧ ∀ j, j < k → s.key j = false := by
  rw [State.leastHeld, List.find?_eq_some_iff_getElem]
  constructor
  · rintro ⟨hk, i, hi, rfl, hlt⟩
    rw [List.length_finRange] at hi
    refine ⟨hk, fun j hj => ?_⟩
    have := hlt j.val (by simpa [Fin.lt_def] using hj)
    simpa using this
  · rintro ⟨hk, hlt⟩
    refine ⟨hk, k.val, by simp, by simp, fun j hj => ?_⟩
    simpa using hlt ⟨j, by omega⟩ hj

/-! ### The framebuffer (R28, R171) -/

theorem FrameBuffer.pixel_toggle (fb : FrameBuffer) (r q : Fin 32) (c d : Fin 64) :
    FrameBuffer.pixel (FrameBuffer.toggle fb r c) q d =
      if q = r ∧ d = c then !FrameBuffer.pixel fb q d else FrameBuffer.pixel fb q d := by
  by_cases hr : q = r <;> by_cases hc : d = c
  · subst hr; subst hc; simp [FrameBuffer.pixel, FrameBuffer.toggle]
  · subst hr
    have : c.val ≠ d.val := fun h => hc (Fin.ext h).symm
    simp [FrameBuffer.pixel, FrameBuffer.toggle, hc, Vector.getElem_set_ne, this]
  · have : r.val ≠ q.val := fun h => hr (Fin.ext h).symm
    simp [FrameBuffer.pixel, FrameBuffer.toggle, hr, Vector.getElem_set_ne, this]
  · have : r.val ≠ q.val := fun h => hr (Fin.ext h).symm
    simp [FrameBuffer.pixel, FrameBuffer.toggle, hr, Vector.getElem_set_ne, this]

end Sys2Proof.Machine
end

