-- ==== Sys2Proof/Laws/Sprite.lean ====
section
/-!
SUPPORT. What drawing a byte and drawing the rows of a sprite do to every pixel and to the collision: the scan of R171 toggles
each pixel at most once, so it is an XOR with the wrapped image of R173.
-/

namespace Sys2Proof.Machine

/-- A place of a ring lies `k` after `a` exactly when it is `(a + k) mod m`. -/
theorem ringDistance_eq_iff {m : Nat} (a k b : Nat) (hk : k < m) (hb : b < m) :
    ringDistance m a b = k ↔ b = (a + k) % m := by
  have ha : a % m < m := Nat.mod_lt _ (by omega)
  have hsum : (a + k) % m = (a % m + k) % m := by rw [Nat.mod_add_mod]
  rw [ringDistance, hsum]
  clear hsum
  generalize a % m = p at *
  by_cases h1 : b < p
  · rw [Nat.mod_eq_of_lt (show b + (m - p) < m by omega)]
    by_cases h2 : p + k < m
    · rw [Nat.mod_eq_of_lt h2]; omega
    · rw [Nat.mod_eq_sub_mod (by omega), Nat.mod_eq_of_lt (by omega)]; omega
  · rw [Nat.mod_eq_sub_mod (show b + (m - p) ≥ m by omega), Nat.mod_eq_of_lt (by omega)]
    by_cases h2 : p + k < m
    · rw [Nat.mod_eq_of_lt h2]; omega
    · rw [Nat.mod_eq_sub_mod (by omega), Nat.mod_eq_of_lt (by omega)]; omega

theorem ringDistance_lt {m : Nat} (a b : Nat) (hm : 0 < m) : ringDistance m a b < m := Nat.mod_lt _ hm

/-- Whether the sprite byte `b`, its left edge at column `x0`, covers column `d` with one of its first `k` bits from the left. -/
def byteCovers (b : Byte) (x0 k : Nat) (d : Fin 64) : Bool :=
  decide (ringDistance 64 x0 d.val < k) && b.getLsbD (7 - ringDistance 64 x0 d.val)

/-- The scan of one sprite byte up to its `k`-th bit. -/
def Canvas.plotBits (cv : Canvas) (row : Fin 32) (x0 : Nat) (b : Byte) (k : Nat) : Canvas :=
  (List.range k).foldl (fun cv c => if b.getLsbD (7 - c) then cv.plot row (Fin.ofNat 64 (x0 + c)) else cv) cv

theorem Canvas.plotBits_succ (cv : Canvas) (row : Fin 32) (x0 : Nat) (b : Byte) (k : Nat) :
    cv.plotBits row x0 b (k + 1) =
      if b.getLsbD (7 - k) then (cv.plotBits row x0 b k).plot row (Fin.ofNat 64 (x0 + k)) else cv.plotBits row x0 b k := by
  simp [Canvas.plotBits, List.range_succ, List.foldl_append]

theorem byteCovers_succ (b : Byte) (x0 k : Nat) (d : Fin 64) (hk : k < 64) :
    byteCovers b x0 (k + 1) d = (byteCovers b x0 k d || (decide (d = Fin.ofNat 64 (x0 + k)) && b.getLsbD (7 - k))) := by
  have key : (d = Fin.ofNat 64 (x0 + k)) ↔ ringDistance 64 x0 d.val = k := by
    rw [Fin.ext_iff, Fin.val_ofNat, ringDistance_eq_iff x0 k d.val hk d.isLt]
  simp only [byteCovers, key]
  rcases Nat.lt_trichotomy (ringDistance 64 x0 d.val) k with h | h | h
  · simp [h, Nat.lt_succ_of_lt h, h.ne]
  · simp [h]
  · simp [show ¬ringDistance 64 x0 d.val < k by omega, show ¬ringDistance 64 x0 d.val < k + 1 by omega, h.ne']

/-- What the first `k` bits of a sprite byte do: each pixel they cover is toggled, and there is a collision if one was set. -/
theorem Canvas.plotBits_spec (cv : Canvas) (row : Fin 32) (x0 : Nat) (b : Byte) (k : Nat) (hk : k ≤ 64) :
    (∀ q d, FrameBuffer.pixel (cv.plotBits row x0 b k).fb q d =
      (FrameBuffer.pixel cv.fb q d ^^ (decide (q = row) && byteCovers b x0 k d))) ∧
    ((cv.plotBits row x0 b k).hit = true ↔
      cv.hit = true ∨ ∃ d, FrameBuffer.pixel cv.fb row d = true ∧ byteCovers b x0 k d = true) := by
  induction k with
  | zero => simp [Canvas.plotBits, byteCovers]
  | succ k ih =>
    obtain ⟨ihp, ihh⟩ := ih (by omega)
    have cov := fun d => byteCovers_succ b x0 k d (by omega)
    have self : byteCovers b x0 k (Fin.ofNat 64 (x0 + k)) = false := by
      have : ringDistance 64 x0 (Fin.ofNat 64 (x0 + k)).val = k :=
        (ringDistance_eq_iff _ _ _ (by omega) (Fin.isLt _)).mpr (Fin.val_ofNat ..)
      rw [byteCovers, this]; simp
    rw [Canvas.plotBits_succ]
    generalize Fin.ofNat 64 (x0 + k) = c0 at *
    by_cases hb : b.getLsbD (7 - k)
    · simp only [hb, if_true, Canvas.plot, cov, Bool.and_true]
      constructor
      · intro q d
        rw [FrameBuffer.pixel_toggle, ihp]
        by_cases hq : q = row <;> by_cases hd : d = c0
        · subst hq; subst hd; simp [self]
        · simp [hq, hd]
        · simp [hq]
        · simp [hq]
      · rw [Bool.or_eq_true, ihh, ihp, self]
        simp only [Bool.and_false, Bool.xor_false, Bool.or_eq_true, decide_eq_true_eq]
        constructor
        · rintro ((h | ⟨d, h1, h2⟩) | h)
          · exact .inl h
          · exact .inr ⟨d, h1, .inl h2⟩
          · exact .inr ⟨_, h, .inr rfl⟩
        · rintro (h | ⟨d, h1, h2 | rfl⟩)
          · exact .inl (.inl h)
          · exact .inl (.inr ⟨d, h1, h2⟩)
          · exact .inr h1
    · simp only [hb, Bool.false_eq_true, if_false, cov, Bool.and_false, Bool.or_false]
      exact ⟨ihp, ihh⟩

/-- Whether the sprite `bs`, its left edge at column `x0` and its top edge at row `y0`, covers a pixel with a set bit (R172). -/
def spriteCovers (bs : List Byte) (x0 y0 : Nat) (q : Fin 32) (d : Fin 64) : Bool :=
  match bs[ringDistance 32 y0 q.val]? with
  | some b => byteCovers b x0 8 d
  | none => false

theorem spriteCovers_cons (b : Byte) (rest : List Byte) (x0 y0 : Nat) (q : Fin 32) (d : Fin 64) :
    spriteCovers (b :: rest) x0 y0 q d =
      if q = Fin.ofNat 32 y0 then byteCovers b x0 8 d else spriteCovers rest x0 (y0 + 1) q d := by
  have hq := q.isLt
  have h0 : (q = Fin.ofNat 32 y0) ↔ ringDistance 32 y0 q.val = 0 := by
    rw [Fin.ext_iff, Fin.val_ofNat, ringDistance_eq_iff y0 0 q.val (by omega) hq, Nat.add_zero]
  by_cases hr : ringDistance 32 y0 q.val = 0
  · rw [if_pos (h0.mpr hr), spriteCovers, hr]; rfl
  · rw [if_neg (fun h => hr (h0.mp h))]
    have hlt := ringDistance_lt y0 q.val (show 0 < 32 by omega)
    have hs : ringDistance 32 (y0 + 1) q.val = ringDistance 32 y0 q.val - 1 := by
      rw [ringDistance_eq_iff _ _ _ (by omega) hq, Nat.add_assoc, Nat.add_sub_cancel' (by omega)]
      exact (ringDistance_eq_iff _ _ _ hlt hq).mp rfl
    rw [spriteCovers, spriteCovers, hs]
    obtain ⟨r, hr'⟩ : ∃ r, ringDistance 32 y0 q.val = r + 1 := ⟨_, (Nat.succ_pred_eq_of_ne_zero hr).symm⟩
    rw [hr', List.getElem?_cons_succ, Nat.add_sub_cancel]

theorem spriteCovers_own_row (rest : List Byte) (x0 y0 : Nat) (d : Fin 64) (h : rest.length < 32) :
    spriteCovers rest x0 (y0 + 1) (Fin.ofNat 32 y0) d = false := by
  have : ringDistance 32 (y0 + 1) (Fin.ofNat 32 y0).val = 31 := by
    rw [ringDistance_eq_iff _ _ _ (by omega) (Fin.isLt _), Fin.val_ofNat]; omega
  rw [spriteCovers, this, List.getElem?_eq_none (by omega)]

/-- What drawing a sprite of at most 32 rows does: every pixel it covers is toggled, and there is a collision exactly if one of
them was set (R171, R173). -/
theorem Canvas.plotRows_spec (cv : Canvas) (x0 y0 : Nat) (bs : List Byte) (h : bs.length ≤ 32) :
    (∀ q d, FrameBuffer.pixel (cv.plotRows x0 y0 bs).fb q d =
      (FrameBuffer.pixel cv.fb q d ^^ spriteCovers bs x0 y0 q d)) ∧
    ((cv.plotRows x0 y0 bs).hit = true ↔
      cv.hit = true ∨ ∃ q d, FrameBuffer.pixel cv.fb q d = true ∧ spriteCovers bs x0 y0 q d = true) := by
  induction bs generalizing cv y0 with
  | nil => simp [Canvas.plotRows, spriteCovers]
  | cons b rest ih =>
    rw [List.length_cons] at h
    obtain ⟨bp, bh⟩ := Canvas.plotBits_spec cv (Fin.ofNat 32 y0) x0 b 8 (by omega)
    obtain ⟨ihp, ihh⟩ := ih (cv.plotBits (Fin.ofNat 32 y0) x0 b 8) (y0 + 1) (by omega)
    have cons := fun q d => spriteCovers_cons b rest x0 y0 q d
    have own := fun d => spriteCovers_own_row rest x0 y0 d (by omega)
    have hrows : cv.plotRows x0 y0 (b :: rest) = (cv.plotBits (Fin.ofNat 32 y0) x0 b 8).plotRows x0 (y0 + 1) rest := rfl
    rw [hrows]
    generalize Fin.ofNat 32 y0 = r0 at *
    constructor
    · intro q d
      rw [ihp, bp, cons]
      by_cases hq : q = r0
      · subst hq; simp [own]
      · simp [hq]
    · rw [ihh, bh]
      constructor
      · rintro ((hc | ⟨d, h1, h2⟩) | ⟨q, d, h1, h2⟩)
        · exact .inl hc
        · exact .inr ⟨_, d, h1, by rw [cons, if_pos rfl, h2]⟩
        · have hq : q ≠ r0 := by rintro rfl; rw [own] at h2; exact Bool.false_ne_true h2
          rw [bp] at h1
          exact .inr ⟨q, d, by simpa [hq] using h1, by rw [cons, if_neg hq, h2]⟩
      · rintro (hc | ⟨q, d, h1, h2⟩)
        · exact .inl (.inl hc)
        · rw [cons] at h2
          by_cases hq : q = r0
          · subst hq
            rw [if_pos rfl] at h2
            exact .inl (.inr ⟨d, h1, h2⟩)
          · rw [if_neg hq] at h2
            exact .inr ⟨q, d, by rw [bp]; simpa [hq] using h1, h2⟩

/-- The sprite's image by byte list is the image by memory that the claims use. -/
theorem spriteCovers_readList (s : State) (x0 y0 n : Nat) (q : Fin 32) (d : Fin 64) :
    spriteCovers (s.mem.readList (s.effAddr 0) n) x0 y0 q d = s.spriteBit x0 y0 n q d := by
  simp only [spriteCovers, State.spriteBit, byteCovers, State.effAddr, Nat.add_zero]
  by_cases h : ringDistance 32 y0 q.val < n
  · rw [List.getElem?_eq_getElem (by simpa using h)]
    simp [h]
  · rw [List.getElem?_eq_none (by simpa using h)]
    simp [h]

end Sys2Proof.Machine
end

