-- ==== Sys2Proof/Laws/Step.lean ====
section
/-!
SUPPORT. Everything a cycle and a step can do, said once; what a placed word does; what each event leaves.
-/

namespace Sys2Proof.Machine

variable {s t : State}

theorem State.faulted_iff (s : State) : s.faulted = true ↔ s.fault.cause ≠ .noFault := by
  simp [State.faulted]

theorem State.fetchOutOfBounds_iff (s : State) : s.fetchOutOfBounds = true ↔ s.pc.toNat > 0xFFE := by
  simp [State.fetchOutOfBounds]

/-- The four ways a cycle ends (R90 to R92). -/
theorem cycle_cases (h : cycle s = .next t) :
    (s.fault.cause ≠ .noFault ∧ t = s) ∨
    (s.fault.cause = .noFault ∧ s.pc.toNat > 0xFFE ∧ t = s.raise .outOfBounds 0 s.pc) ∨
    (s.fault.cause = .noFault ∧ s.pc.toNat ≤ 0xFFE ∧ (∃ e, decode s.fetchWord = .error e) ∧
      t = s.raise .unimplementedOpcode s.fetchWord 0) ∨
    (s.fault.cause = .noFault ∧ s.pc.toNat ≤ 0xFFE ∧ ∃ i, decode s.fetchWord = .ok i ∧ exec i s = .next t) := by
  unfold cycle at h
  split_ifs at h with hf hp
  · exact .inl ⟨(s.faulted_iff).mp hf, (Host.Outcome.next.inj h).symm⟩
  · exact .inr (.inl ⟨by simpa [State.faulted_iff] using hf, (s.fetchOutOfBounds_iff).mp hp,
      (Host.Outcome.next.inj h).symm⟩)
  · have hf : s.fault.cause = .noFault := by simpa [State.faulted_iff] using hf
    have hp : s.pc.toNat ≤ 0xFFE := by simpa [State.fetchOutOfBounds_iff] using hp
    cases hd : decode s.fetchWord with
    | ok i => rw [hd] at h; exact .inr (.inr (.inr ⟨hf, hp, i, rfl, h⟩))
    | error e => rw [hd] at h; exact .inr (.inr (.inl ⟨hf, hp, ⟨e, rfl⟩, (Host.Outcome.next.inj h).symm⟩))

theorem cycle_faulted (h : s.fault.cause ≠ .noFault) : cycle s = .next s := by
  rw [cycle, if_pos ((s.faulted_iff).mpr h)]

theorem cycle_fetch_fault (h : s.fault.cause = .noFault) (hp : s.pc.toNat > 0xFFE) :
    cycle s = .next (s.raise .outOfBounds 0 s.pc) := by
  rw [cycle, if_neg (by simp [State.faulted, h]), if_pos ((s.fetchOutOfBounds_iff).mpr hp)]

theorem cycle_illegal {e : DecodeError} (h : s.fault.cause = .noFault) (hp : s.pc.toNat ≤ 0xFFE)
    (hd : decode s.fetchWord = .error e) : cycle s = .next (s.raise .unimplementedOpcode s.fetchWord 0) := by
  rw [cycle, if_neg (by simp [State.faulted, h]), if_neg (by simpa [State.fetchOutOfBounds] using hp), hd]

theorem cycle_decoded {i : Instr} (h : s.fault.cause = .noFault) (hp : s.pc.toNat ≤ 0xFFE)
    (hd : decode s.fetchWord = .ok i) : cycle s = exec i s := by
  rw [cycle, if_neg (by simp [State.faulted, h]), if_neg (by simpa [State.fetchOutOfBounds] using hp), hd]

theorem step_event {e : HostEvent} (h : s.host.events.next = e) : step s = hostEvent e s.takeEvent := by
  rw [step, nextEvent, h]

theorem step_cycle {b : Option Byte} (h : s.host.events.next = .cycle b) : step s = cycle (s.takeEvent.presentRnd b) :=
  step_event h

/-- The ways a step goes: one of the five events (R8), the next of the host's queue. -/
theorem step_cases (h : step s = .next t) :
    (s.host.events.next = .init ∧ t = s.takeEvent.init) ∨
    (∃ bytes, s.host.events.next = .load bytes ∧ t = eventLoad bytes s.takeEvent) ∨
    (∃ k l, s.host.events.next = .setKey k l ∧ t = eventSetKey k l s.takeEvent) ∨
    (∃ b, s.host.events.next = .cycle b ∧ cycle (s.takeEvent.presentRnd b) = .next t) ∨
    (s.host.events.next = .tick ∧ t = eventTick s.takeEvent) := by
  cases he : s.host.events.next <;> rw [step_event he] at h
  case init => exact .inl ⟨rfl, (Host.Outcome.next.inj h).symm⟩
  case load bytes => exact .inr (.inl ⟨bytes, rfl, (Host.Outcome.next.inj h).symm⟩)
  case setKey k l => exact .inr (.inr (.inl ⟨k, l, rfl, (Host.Outcome.next.inj h).symm⟩))
  case cycle b => exact .inr (.inr (.inr (.inl ⟨b, rfl, h⟩)))
  case tick => exact .inr (.inr (.inr (.inr ⟨rfl, (Host.Outcome.next.inj h).symm⟩)))

/-! ### The host's queue (R9) -/

@[simp] theorem EventQueue.next_cons (e : HostEvent) (l : List HostEvent) (src : EventSource) :
    EventQueue.next { pending := e :: l, later := src } = e := rfl
@[simp] theorem EventQueue.rest_cons (e : HostEvent) (l : List HostEvent) (src : EventSource) :
    EventQueue.rest { pending := e :: l, later := src } = { pending := l, later := src } := rfl
@[simp] theorem EventQueue.next_repeating (e : HostEvent) (l : List HostEvent) :
    EventQueue.next { pending := [], later := .repeating e l } = e := rfl
@[simp] theorem EventQueue.rest_repeating (e : HostEvent) (l : List HostEvent) :
    EventQueue.rest { pending := [], later := .repeating e l } = { pending := l, later := .repeating e l } := rfl
@[simp] theorem EventQueue.next_free (stream k : Nat) :
    EventQueue.next { pending := [], later := .free stream k } = Config.freeEvent stream k := rfl
@[simp] theorem EventQueue.rest_free (stream k : Nat) :
    EventQueue.rest { pending := [], later := .free stream k } = { pending := [], later := .free stream (k + 1) } := rfl
@[simp] theorem EventQueue.next_cycles : EventQueue.cycles.next = .cycle none := rfl
@[simp] theorem EventQueue.rest_cycles : EventQueue.cycles.rest = .cycles := rfl

theorem EventQueue.first_succ (q : EventQueue) (n : Nat) : q.first (n + 1) = q.next :: q.rest.first n := rfl
theorem EventQueue.drop_succ (q : EventQueue) (n : Nat) : q.drop (n + 1) = q.rest.drop n := rfl

/-- The events lined up come first. -/
theorem EventQueue.first_append (l : List HostEvent) (src : EventSource) (n : Nat) :
    EventQueue.first { pending := l, later := src } (l.length + n) =
      l ++ EventQueue.first { pending := [], later := src } n := by
  induction l with
  | nil => simp
  | cons e l ih => rw [List.length_cons, Nat.add_right_comm, EventQueue.first_succ, next_cons, rest_cons, ih, List.cons_append]

/-- A free stream gives its values in order. -/
theorem EventQueue.first_free (stream k n : Nat) :
    EventQueue.first { pending := [], later := .free stream k } n = (List.range n).map (fun j => Config.freeEvent stream (k + j)) := by
  induction n generalizing k with
  | zero => rfl
  | succ n ih =>
    rw [EventQueue.first_succ, next_free, rest_free, ih, List.range_succ_eq_map, List.map_cons, List.map_map]
    simp [Function.comp_def, Nat.add_comm, Nat.add_left_comm]

@[simp] theorem toNat_countDown (b : Byte) : (countDown b).toNat = b.toNat - 1 := by
  have := b.isLt
  unfold countDown
  split_ifs with h
  · rw [toNat_byteOf, Nat.mod_eq_of_lt (by omega)]
  · omega

/-- A placed word is the next one fetched (R52). -/
theorem State.fetchWord_placeWord (s : State) (w : Word) : (s.placeWord w).fetchWord = w := by
  have hpc : (s.placeWord w).pc = s.placePc := rfl
  have hmem : (s.placeWord w).mem = s.mem.writeList s.placePc.toNat [highByte w, lowByte w] := rfl
  rw [State.fetchWord, hpc, hmem]
  simp [Memory.writeList]

theorem State.placePc_le (s : State) : s.placePc.toNat ≤ 0xFFE := by
  unfold State.placePc
  split_ifs with h
  · decide
  · simpa [State.fetchOutOfBounds_iff] using h

/-- A step from a state with a placed word runs the instruction the word decodes to. -/
theorem step_placeWord {w : Word} {i : Instr} (h : decode w = .ok i) :
    step (s.placeWord w) = exec i ((s.placeWord w).takeEvent.presentRnd none) := by
  rw [step_cycle (b := none) rfl]
  refine cycle_decoded rfl s.placePc_le ?_
  exact (congrArg decode (s.fetchWord_placeWord w)).trans h

end Sys2Proof.Machine
end

