-- ==== Sys2Proof/Laws/Safety.lean ====
section
/-!
SUPPORT. Frames and the invariant: they compose, raising a fault changes the record only, and what leaves memory, stack and
fault record alone keeps the invariant.
-/

namespace Sys2Proof.Machine

variable {s t u : State} {P Q : Part → Prop}

theorem OnlyChanges.refl (s : State) (P : Part → Prop) : OnlyChanges s s P := fun p _ => by cases p <;> rfl

theorem OnlyChanges.trans (h : OnlyChanges s t P) (g : OnlyChanges t u P) : OnlyChanges s u P := fun p hp => by
  have a := h p hp
  have b := g p hp
  cases p <;> exact Eq.trans b a

theorem OnlyChanges.mono (h : OnlyChanges s t P) (hPQ : ∀ p, P p → Q p) : OnlyChanges s t Q :=
  fun p hp => h p fun hP => hp (hPQ p hP)

/-- A fault is precise: raising one changes the record and nothing else (R222). -/
theorem raisedOnly_raise (s : State) (cause : FaultCause) (opcode addr : Word) :
    RaisedOnly s (s.raise cause opcode addr) cause opcode addr :=
  ⟨rfl, fun p hp => by cases p <;> simp_all [Part.same]⟩

/-- The first of a run of steps. -/
theorem run_succ {M : Host.Core} {k : Nat} {a b : M.State} (h : M.step a = .next b) : M.run (k + 1) a = M.run k b := by
  rw [Host.Core.run, h]

/-! ### Keeping the invariant -/

theorem inv_raise (h : s.Inv) {cause : FaultCause} (opcode addr : Word) (hc : cause ≠ .noFault) :
    (s.raise cause opcode addr).Inv :=
  ⟨h.mem_wf, h.slots, h.depth, h.live, h.pc_le, fun hn => absurd hn hc, h.pc_le⟩

/-- A state with the same stack, parameters and fault record, a canonical memory and a pc in range. -/
theorem inv_of (h : s.Inv) (hm : t.mem.wf) (hstack : t.stack = s.stack) (hsp : t.sp = s.sp) (hc : t.config = s.config)
    (hpc : t.pc.toNat ≤ 0x10FE) (hf : t.fault = s.fault) : t.Inv where
  mem_wf := hm
  slots := by rw [hstack, hc]; exact h.slots
  depth := by rw [hsp, hc]; exact h.depth
  live := by simp only [State.slot, hstack, hsp]; exact h.live
  pc_le := hpc
  no_fault := by rw [hf]; exact h.no_fault
  fault_pc_le := by rw [hf]; exact h.fault_pc_le

theorem inv_setHost (h : s.Inv) (g : HostSide) : (s.setHost g).Inv := inv_of h h.mem_wf rfl rfl rfl h.pc_le rfl

end Sys2Proof.Machine
end

