-- ==== Sys2Proof/Laws/Events.lean ====
section
/-!
SUPPORT. The host's queue and a run: what a queue gives after its first events, the first and the last step of a run, and that the
core never reads the queue, so that an event does the same whatever stands behind it.
-/

namespace Sys2Proof.Machine

variable {s t : State}

/-! ### The queue -/

theorem EventQueue.drop_add (q : EventQueue) (m n : Nat) : q.drop (m + n) = (q.drop m).drop n := by
  induction m generalizing q with
  | zero => rw [Nat.zero_add]; rfl
  | succ m ih => rw [Nat.add_right_comm]; exact ih q.rest

/-- After the events lined up, the source. -/
theorem EventQueue.drop_pending (l : List HostEvent) (src : EventSource) :
    EventQueue.drop { pending := l, later := src } l.length = { pending := [], later := src } := by
  induction l with
  | nil => rfl
  | cons e l ih => exact ih

/-! ### The last step of a run -/

theorem run_last {M : Host.Core} {k : Nat} {a b : M.State} (h : M.run k a = .next b) : M.run (k + 1) a = M.step b := by
  induction k generalizing a with
  | zero => cases h; rw [Host.Core.run]; cases M.step b <;> rfl
  | succ k ih =>
    rw [Host.Core.run] at h
    cases hs : M.step a with
    | next a' => rw [hs] at h; rw [run_succ hs]; exact ih h
    | fault r => rw [hs] at h; cases h
    | refused r => rw [hs] at h; cases h

/-! ### The queue is never read inside an event -/

theorem State.loadRegs_setEvents (s : State) (q : EventQueue) (l : List Byte) (n : Nat) :
    (s.setEvents q).loadRegs n l = (s.loadRegs n l).setEvents q := by
  induction l generalizing n s with
  | nil => rfl
  | cons b l ih => exact ih (s.setReg _ b) (n + 1)

/-- No instruction reads the host's queue, or writes it. -/
theorem exec_setEvents (i : Instr) (q : EventQueue) (h : exec i s = .next t) :
    exec i (s.setEvents q) = .next (t.setEvents q) := by
  have pick : ∀ {c : Prop} [Decidable c] {a b : State} {a' b' : State}, a' = a.setEvents q → b' = b.setEvents q →
      (if c then .next a else .next b : Host.Outcome State Fault Refusal) = .next t →
      (if c then .next a' else .next b' : Host.Outcome State Fault Refusal) = .next (t.setEvents q) := by
    intro c _ a b a' b' ha hb h
    split_ifs at h ⊢ <;> cases h
    exacts [congrArg _ ha, congrArg _ hb]
  cases i
  case ldm x => exact pick rfl (congrArg State.advance (s.loadRegs_setEvents q _ 0)) h
  case ret | call | drw | skp | sknp | bcd | stm => exact pick rfl rfl h
  case ldVxKey x =>
    simp only [exec, execLdVxKey] at h ⊢
    rw [show (s.setEvents q).kw = s.kw from rfl, show (s.setEvents q).leastHeld = s.leastHeld from rfl]
    cases hk : s.kw with
    | none => cases hl : s.leastHeld <;> simp only [hk, hl] at h ⊢ <;> cases h <;> rfl
    | some k => simp only [hk] at h ⊢; exact pick rfl rfl h
  all_goals cases h; rfl

theorem cycle_setEvents (q : EventQueue) (h : cycle s = .next t) : cycle (s.setEvents q) = .next (t.setEvents q) := by
  obtain ⟨hf, ht⟩ | ⟨hf, hp, rfl⟩ | ⟨hf, hp, ⟨e, hd⟩, rfl⟩ | ⟨hf, hp, i, hd, hx⟩ := cycle_cases h
  · rw [ht]; exact cycle_faulted (s := s.setEvents q) hf
  · exact cycle_fetch_fault (s := s.setEvents q) hf hp
  · exact cycle_illegal (s := s.setEvents q) hf hp hd
  · exact (cycle_decoded (s := s.setEvents q) hf hp hd).trans (exec_setEvents i q hx)

/-- An event does the same whatever the host presents after it. -/
theorem hostEvent_setEvents (e : HostEvent) (q : EventQueue) (h : hostEvent e s = .next t) :
    hostEvent e (s.setEvents q) = .next (t.setEvents q) := by
  cases e
  case load bytes =>
    simp only [hostEvent, eventLoad] at h ⊢
    split_ifs at h ⊢ <;> cases h <;> rfl
  case cycle b => exact cycle_setEvents (s := s.presentRnd b) q h
  all_goals cases h; rfl

end Sys2Proof.Machine
end

