-- ==== Sys2Proof/Laws/PerInstr.lean ====
section
/-!
SUPPORT. Per instruction: its word lies in its own row of the encoding table, whatever its operands (R71, R75).
-/

namespace Sys2Proof

theorem getLsbD_ofNat16 (n i : Nat) :
    (BitVec.ofNat 16 n).getLsbD i = (decide (i < 16) && decide (n / 2 ^ i % 2 = 1)) := by
  rw [BitVec.getLsbD_ofNat, Nat.testBit_eq_decide_div_mod_eq]

/-- Format A: only the opcode nibble is fixed. -/
theorem encodeA_and (op : Nat) (nnn : Addr12) : encodeA op nnn &&& 0xF000#16 = BitVec.ofNat 16 (op * 0x1000) := by
  have := nnn.isLt
  refine BitVec.eq_of_getLsbD_eq fun i hi => ?_
  rw [BitVec.getLsbD_and, encodeA, getLsbD_ofNat16, getLsbD_ofNat16, getLsbD_ofNat16]
  interval_cases i <;> simp <;> omega

/-- Format XI: only the opcode nibble is fixed. -/
theorem encodeXI_and (op : Nat) (x : Reg) (nn : Byte) :
    encodeXI op x nn &&& 0xF000#16 = BitVec.ofNat 16 (op * 0x1000) := by
  have := x.isLt
  have := nn.isLt
  refine BitVec.eq_of_getLsbD_eq fun i hi => ?_
  rw [BitVec.getLsbD_and, encodeXI, getLsbD_ofNat16, getLsbD_ofNat16, getLsbD_ofNat16]
  interval_cases i <;> simp <;> omega

/-- Format XY: the opcode nibble and the function nibble are fixed. -/
theorem encodeXYN_and (op : Nat) (x y : Reg) (low : Nat) (h : low < 16) :
    encodeXYN op x y low &&& 0xF00F#16 = BitVec.ofNat 16 (op * 0x1000 + low) := by
  have := x.isLt
  have := y.isLt
  refine BitVec.eq_of_getLsbD_eq fun i hi => ?_
  rw [BitVec.getLsbD_and, encodeXYN, getLsbD_ofNat16, getLsbD_ofNat16, getLsbD_ofNat16]
  interval_cases i <;> simp <;> omega

/-- Format XYN: only the opcode nibble is fixed. -/
theorem encodeXYN_and_op (op : Nat) (x y : Reg) (n : Nibble) :
    encodeXYN op x y n.toNat &&& 0xF000#16 = BitVec.ofNat 16 (op * 0x1000) := by
  have := x.isLt
  have := y.isLt
  have := n.isLt
  refine BitVec.eq_of_getLsbD_eq fun i hi => ?_
  rw [BitVec.getLsbD_and, encodeXYN, getLsbD_ofNat16, getLsbD_ofNat16, getLsbD_ofNat16]
  interval_cases i <;> simp <;> omega

/-- Format XF: the opcode nibble and the function byte are fixed. -/
theorem encodeXF_and (op : Nat) (x : Reg) (func : Nat) (h : func < 256) :
    encodeXF op x func &&& 0xF0FF#16 = BitVec.ofNat 16 (op * 0x1000 + func) := by
  have := x.isLt
  refine BitVec.eq_of_getLsbD_eq fun i hi => ?_
  rw [BitVec.getLsbD_and, encodeXF, getLsbD_ofNat16, getLsbD_ofNat16, getLsbD_ofNat16]
  interval_cases i <;> simp <;> omega

/-- Every instruction's row is in the table. -/
theorem Instr.row_mem (i : Instr) : i.row ∈ opcodeTable := by
  cases i <;> simp [opcodeTable, instrOfEachRow, Instr.row]

end Sys2Proof

namespace Sys2Proof.Laws.EncodeInRow

/-- The instruction's word has the fixed bits of its row, and the row is one of the table's. -/
def Statement (i : Instr) : Prop := encode i &&& i.row.mask = i.row.pattern ∧ i.row ∈ opcodeTable

theorem cls : Statement .cls := ⟨rfl, Instr.row_mem _⟩
theorem ret : Statement .ret := ⟨rfl, Instr.row_mem _⟩
theorem jp (nnn : Addr12) : Statement (.jp nnn) := ⟨encodeA_and _ nnn, Instr.row_mem _⟩
theorem call (nnn : Addr12) : Statement (.call nnn) := ⟨encodeA_and _ nnn, Instr.row_mem _⟩
theorem seImm (x : Reg) (nn : Byte) : Statement (.seImm x nn) := ⟨encodeXI_and _ x nn, Instr.row_mem _⟩
theorem sneImm (x : Reg) (nn : Byte) : Statement (.sneImm x nn) := ⟨encodeXI_and _ x nn, Instr.row_mem _⟩
theorem seReg (x y : Reg) : Statement (.seReg x y) := ⟨encodeXYN_and _ x y _ (by decide), Instr.row_mem _⟩
theorem ldImm (x : Reg) (nn : Byte) : Statement (.ldImm x nn) := ⟨encodeXI_and _ x nn, Instr.row_mem _⟩
theorem addImm (x : Reg) (nn : Byte) : Statement (.addImm x nn) := ⟨encodeXI_and _ x nn, Instr.row_mem _⟩
theorem ldReg (x y : Reg) : Statement (.ldReg x y) := ⟨encodeXYN_and _ x y _ (by decide), Instr.row_mem _⟩
theorem or (x y : Reg) : Statement (.or x y) := ⟨encodeXYN_and _ x y _ (by decide), Instr.row_mem _⟩
theorem and (x y : Reg) : Statement (.and x y) := ⟨encodeXYN_and _ x y _ (by decide), Instr.row_mem _⟩
theorem xor (x y : Reg) : Statement (.xor x y) := ⟨encodeXYN_and _ x y _ (by decide), Instr.row_mem _⟩
theorem addReg (x y : Reg) : Statement (.addReg x y) := ⟨encodeXYN_and _ x y _ (by decide), Instr.row_mem _⟩
theorem sub (x y : Reg) : Statement (.sub x y) := ⟨encodeXYN_and _ x y _ (by decide), Instr.row_mem _⟩
theorem shr (x y : Reg) : Statement (.shr x y) := ⟨encodeXYN_and _ x y _ (by decide), Instr.row_mem _⟩
theorem subn (x y : Reg) : Statement (.subn x y) := ⟨encodeXYN_and _ x y _ (by decide), Instr.row_mem _⟩
theorem shl (x y : Reg) : Statement (.shl x y) := ⟨encodeXYN_and _ x y _ (by decide), Instr.row_mem _⟩
theorem sneReg (x y : Reg) : Statement (.sneReg x y) := ⟨encodeXYN_and _ x y _ (by decide), Instr.row_mem _⟩
theorem ldI (nnn : Addr12) : Statement (.ldI nnn) := ⟨encodeA_and _ nnn, Instr.row_mem _⟩
theorem jpV0 (nnn : Addr12) : Statement (.jpV0 nnn) := ⟨encodeA_and _ nnn, Instr.row_mem _⟩
theorem rnd (x : Reg) (nn : Byte) : Statement (.rnd x nn) := ⟨encodeXI_and _ x nn, Instr.row_mem _⟩
theorem drw (x y : Reg) (n : Nibble) : Statement (.drw x y n) := ⟨encodeXYN_and_op _ x y n, Instr.row_mem _⟩
theorem skp (x : Reg) : Statement (.skp x) := ⟨encodeXF_and _ x _ (by decide), Instr.row_mem _⟩
theorem sknp (x : Reg) : Statement (.sknp x) := ⟨encodeXF_and _ x _ (by decide), Instr.row_mem _⟩
theorem ldVxDt (x : Reg) : Statement (.ldVxDt x) := ⟨encodeXF_and _ x _ (by decide), Instr.row_mem _⟩
theorem ldVxKey (x : Reg) : Statement (.ldVxKey x) := ⟨encodeXF_and _ x _ (by decide), Instr.row_mem _⟩
theorem ldDtVx (x : Reg) : Statement (.ldDtVx x) := ⟨encodeXF_and _ x _ (by decide), Instr.row_mem _⟩
theorem ldStVx (x : Reg) : Statement (.ldStVx x) := ⟨encodeXF_and _ x _ (by decide), Instr.row_mem _⟩
theorem addI (x : Reg) : Statement (.addI x) := ⟨encodeXF_and _ x _ (by decide), Instr.row_mem _⟩
theorem bcd (x : Reg) : Statement (.bcd x) := ⟨encodeXF_and _ x _ (by decide), Instr.row_mem _⟩
theorem stm (x : Reg) : Statement (.stm x) := ⟨encodeXF_and _ x _ (by decide), Instr.row_mem _⟩
theorem ldm (x : Reg) : Statement (.ldm x) := ⟨encodeXF_and _ x _ (by decide), Instr.row_mem _⟩

end Sys2Proof.Laws.EncodeInRow
end

