-- ==== Sys2Proof/Tests/Slice0.lean ====
section
/-!
SUPPORT. The model's own tests. Expected values are those of spec/95_test_vectors.md (a vector's id stands in the comment), or the
words of 30_encoding.md written out bit by bit; then the witnesses: states that meet the hypotheses of each statement.
-/

namespace Sys2Proof.Tests

open Sys2Proof.Machine

/-! ### Well-formedness: the checks refuse an ill-formed table -/

/-- A row whose pattern fixes a bit its mask does not cover. -/
theorem test_wellFormed_refuses_pattern_outside_mask : (OpcodeRow.mk "JP" 0xF000#16 0x1001#16).wellFormed = false := by decide

/-- Two rows that share the word 0x8000. -/
theorem test_wellFormed_refuses_overlap :
    opcodeTableWellFormed [⟨"LD_REG", 0xF00F#16, 0x8000#16⟩, ⟨"ALU", 0xF000#16, 0x8000#16⟩] = false := by decide

/-- Two rows of one mnemonic. -/
theorem test_wellFormed_refuses_one_mnemonic_twice :
    opcodeTableWellFormed [⟨"JP", 0xF000#16, 0x1000#16⟩, ⟨"JP", 0xF000#16, 0x2000#16⟩] = false := by decide

theorem test_opcodeTable_wellFormed : opcodeTableWellFormed opcodeTable = true := by decide
theorem test_opcodeTable_rows : opcodeTable.length = 33 := by decide

/-! ### Decoding: a word of every row, opcode nibble, x, y, low nibble written out (30_encoding.md section 3) -/

theorem test_decode_control :
    decode 0b0000000011101110#16 = .ok .ret ∧ decode 0b0001101010111100#16 = .ok (.jp 0xABC) ∧
    decode 0b0010001100000100#16 = .ok (.call 0x304) ∧ decode 0b1011001000000011#16 = .ok (.jpV0 0x203) ∧
    decode 0b0011001100101010#16 = .ok (.seImm 3 0x2A) ∧ decode 0b0100111100000001#16 = .ok (.sneImm 15 0x01) ∧
    decode 0b0101000100100000#16 = .ok (.seReg 1 2) ∧ decode 0b1001000100100000#16 = .ok (.sneReg 1 2) := by decide

theorem test_decode_loads :
    decode 0b0110101011111111#16 = .ok (.ldImm 10 0xFF) ∧ decode 0b0111000100000010#16 = .ok (.addImm 1 0x02) ∧
    decode 0b1000000100100000#16 = .ok (.ldReg 1 2) ∧ decode 0b1100000100001111#16 = .ok (.rnd 1 0x0F) := by decide

theorem test_decode_alu :
    decode 0b1000000100100001#16 = .ok (.or 1 2) ∧ decode 0b1000000100100010#16 = .ok (.and 1 2) ∧
    decode 0b1000000100100011#16 = .ok (.xor 1 2) ∧ decode 0b1000000100100100#16 = .ok (.addReg 1 2) ∧
    decode 0b1000000100100101#16 = .ok (.sub 1 2) ∧ decode 0b1000000100100110#16 = .ok (.shr 1 2) ∧
    decode 0b1000000100100111#16 = .ok (.subn 1 2) ∧ decode 0b1000000100101110#16 = .ok (.shl 1 2) := by decide

theorem test_decode_index_memory :
    decode 0b1010111111111111#16 = .ok (.ldI 0xFFF) ∧ decode 0b1111001100011110#16 = .ok (.addI 3) ∧
    decode 0b1111000000110011#16 = .ok (.bcd 0) ∧ decode 0b1111000101010101#16 = .ok (.stm 1) ∧
    decode 0b1111001001100101#16 = .ok (.ldm 2) := by decide

theorem test_decode_display : decode 0b0000000011100000#16 = .ok .cls ∧ decode 0b1101000000011111#16 = .ok (.drw 0 1 15) := by
  decide

theorem test_decode_keys_timers :
    decode 0b1110001010011110#16 = .ok (.skp 2) ∧ decode 0b1110001010100001#16 = .ok (.sknp 2) ∧
    decode 0b1111001000001010#16 = .ok (.ldVxKey 2) ∧ decode 0b1111010000000111#16 = .ok (.ldVxDt 4) ∧
    decode 0b1111001100010101#16 = .ok (.ldDtVx 3) ∧ decode 0b1111001100011000#16 = .ok (.ldStVx 3) := by decide

/-- T40-1 to T40-5: words beside the table. -/
theorem test_decode_illegal :
    decode 0x0000#16 = .error (.illegal 0x0000#16) ∧ decode 0x00E1#16 = .error (.illegal 0x00E1#16) ∧
    decode 0x5121#16 = .error (.illegal 0x5121#16) ∧ decode 0x9125#16 = .error (.illegal 0x9125#16) ∧
    decode 0x8128#16 = .error (.illegal 0x8128#16) ∧ decode 0x812F#16 = .error (.illegal 0x812F#16) := by decide

/-- T40-6, T40-7: nibbles E and F. -/
theorem test_decode_illegal_EF :
    decode 0xE19F#16 = .error (.illegal 0xE19F#16) ∧ decode 0xE100#16 = .error (.illegal 0xE100#16) ∧
    decode 0xF129#16 = .error (.illegal 0xF129#16) ∧ decode 0xF175#16 = .error (.illegal 0xF175#16) ∧
    decode 0xF100#16 = .error (.illegal 0xF100#16) := by decide

theorem test_decodeBytes_high_byte_first : decodeBytes [0x60, 0x05, 0x12] = .ok (.ldImm 0 5, [0x12]) := by decide
theorem test_decodeBytes_too_short : decodeBytes [0x60] = .error .tooShort := by decide
theorem test_encodeBytes_high_byte_first : encodeBytes (.ldImm 0 5) = [0x60, 0x05] := by decide
theorem test_decodeTableWord : decodeTableWord 16 0x6005 = some (.ldImm 0 5) ∧ decodeTableWord 16 0x0000 = none := by decide

/-! ### Small states -/

/-- The reset state with a word at 0x200. -/
def at200 (w : Word) : State := State.reset.placeWord w

/-- The reset state with some bytes at 0x300 and I there. -/
def at300 (bytes : List Byte) : State := (State.reset.setMem (Memory.writeList [] 0x300 bytes)).setIndex 0x300

/-- A check on the next state; a stop fails it. -/
def after (o : Host.Outcome State Fault Refusal) (check : State → Bool) : Bool :=
  match o with
  | .next t => check t
  | .fault _ => false
  | .refused _ => false

/-- The reset state with V[1], V[2] and VF. -/
def regs (v1 v2 vf : Byte) : State := ((State.reset.setReg 1 v1).setReg 2 v2).setReg VF vf

/-- The reset state with `n` return addresses 0x202 on the stack. -/
def called (n : Nat) : State := { State.reset with sp := n, stack := List.replicate n 0x202 ++ List.replicate (16 - n) 0 }

/-- A state in which everything differs from reset (T70-1). -/
def dirty : State :=
  { State.reset with
    v := Vector.replicate 16 0xFF, iReg := 0x1234, pc := 0x0ABC, sp := 7, mem := [(0x200, 0x60)],
    fb := FrameBuffer.toggle State.reset.fb 1 1, keys := State.reset.keys.set 2 true, dt := 9, st := 9, beep := true,
    fault := { cause := .stackOverflow, pc := 0x300, opcode := 0x2300, addr := 0 }, kw := some 2 }

/-! ### Reset, events, the cycle -/

/-- T70-1. -/
theorem test_init :
    after (step (dirty.withEvents [.init])) (fun t => t == State.reset) = true := by decide

/-- T20-4. -/
theorem test_load :
    after (step ((State.reset.setReg 5 9).withEvents [.load [0x12, 0x00]])) (fun t =>
      t.mem == [(0x200, 0x12)] && t.reg 5 == 9 && t.pc == 0x200 && t.host.loadResult == .accepted) = true := by decide

/-- T45-10: the second of two levels stays. -/
theorem test_setKey :
    after (step ((State.reset.putKey 4 true).withEvents [.setKey 4 false])) (fun t => !t.key 4) = true := by decide

/-- T46-5, T46-6. -/
theorem test_tick :
    after (step ((State.reset.setSt 2).withEvents [.tick])) (fun t => t.st == 1 && t.beep && t.dt == 0) = true ∧
    after (step ((State.reset.setSt 1).withEvents [.tick])) (fun t => t.st == 0 && !t.beep) = true := by decide

/-- T46-4 with ticks recurring among cycles: the second event of each round is a TICK. -/
theorem test_recurring_ticks :
    let s := (dirty.setDt 3).withSource (.repeating (.cycle none) [.tick])
    after (step s) (fun t => t.dt == 3 && t.host.events.next == .tick && after (step t) (fun u => u.dt == 2 &&
      u.host.events == s.host.events)) = true := by decide

/-- T40-1. -/
theorem test_first_cycle_faults_without_a_program :
    after (step State.reset) (fun t => t == State.reset.raise .unimplementedOpcode 0x0000 0) = true := by decide

/-- T40-9. -/
theorem test_fetch_past_the_end :
    after (step (State.reset.setPc 0xFFF)) (fun t => t.fault == ⟨.outOfBounds, 0xFFF, 0, 0xFFF⟩) = true := by decide

/-- T40-10. -/
theorem test_faulted_cycle_is_a_no_op :
    after (step ((at200 0x6005).raise .unimplementedOpcode 0 0)) (fun t => t.reg 0 == 0 && t.pc == 0x200) = true := by decide

/-- S1, by the step and through the host's placement. -/
theorem test_withFetchWord :
    after (step (State.reset.withFetchWord 16 0x6005)) (fun t => t.reg 0 == 5 && t.pc == 0x202) = true := by decide

/-! ### Control flow -/

/-- T41-7. -/
theorem test_ret :
    after (exec .ret { State.reset with sp := 2, stack := [0x202, 0x2A6] }) (fun t => t.sp == 1 && t.pc == 0x2A6) = true := by
  decide

/-- S4. -/
theorem test_ret_underflow :
    after (exec .ret State.reset) (fun t => t == State.reset.raise .stackUnderflow 0x00EE 0) = true := by decide

/-- T41-1. -/
theorem test_jp : after (exec (.jp 0xABC) State.reset) (fun t => t.pc == 0xABC) = true := by decide

/-- T41-5. -/
theorem test_call :
    after (exec (.call 0x300) (called 15)) (fun t => t.slot 15 == 0x202 && t.sp == 16 && t.pc == 0x300) = true := by decide

/-- T41-6. -/
theorem test_call_overflow :
    after (exec (.call 0x300) (called 16)) (fun t => t == (called 16).raise .stackOverflow 0x2300 0) = true := by decide

/-- T41-10, T41-11. -/
theorem test_jpV0 :
    after (exec (.jpV0 0xFFF) (State.reset.setReg 0 0xFF)) (fun t => t.pc == 0x10FE) = true ∧
    after (exec (.jpV0 0x203) (State.reset.setReg 2 0x50)) (fun t => t.pc == 0x203) = true := by decide

/-- T41-12, T41-13. -/
theorem test_immediate_skips :
    after (exec (.seImm 1 0x2A) (regs 0x2A 0 0)) (fun t => t.pc == 0x204) = true ∧
    after (exec (.seImm 1 0x2A) (regs 0x2B 0 0)) (fun t => t.pc == 0x202) = true ∧
    after (exec (.sneImm 1 0x2A) (regs 0x2A 0 0)) (fun t => t.pc == 0x202) = true ∧
    after (exec (.sneImm 1 0x2A) (regs 0x2B 0 0)) (fun t => t.pc == 0x204) = true := by decide

/-- T41-14, T41-16. -/
theorem test_register_skips :
    after (exec (.seReg 1 2) (regs 7 7 0)) (fun t => t.pc == 0x204) = true ∧
    after (exec (.seReg 1 2) (regs 7 8 0)) (fun t => t.pc == 0x202) = true ∧
    after (exec (.sneReg 1 2) (regs 7 8 0)) (fun t => t.pc == 0x204) = true ∧
    after (exec (.sneReg 1 2) (regs 7 7 0)) (fun t => t.pc == 0x202) = true := by decide

/-! ### Loads, arithmetic, logic, shifts, random: V[1], V[2] and VF -/

/-- V[1] and VF after, with pc moved on by 2. -/
def gives (i : Instr) (s : State) (v1 vf : Byte) : Bool :=
  after (exec i s) (fun t => t.reg 1 == v1 && t.reg VF == vf && t.pc == 0x202)

/-- T42-1, T42-2, T42-4. -/
theorem test_loads :
    gives (.ldImm 1 0xFF) (regs 0 0 7) 0xFF 7 = true ∧ gives (.addImm 1 2) (regs 0xFF 0 0) 0x01 0 = true ∧
    gives (.ldReg 1 2) (regs 0 0x9C 7) 0x9C 7 = true := by decide

/-- T42-5 to T42-7. -/
theorem test_logic :
    gives (.or 1 2) (regs 0xF0 0x0F 1) 0xFF 1 = true ∧ gives (.and 1 2) (regs 0xF0 0x3C 1) 0x30 1 = true ∧
    gives (.xor 1 2) (regs 0xF0 0x3C 1) 0xCC 1 = true := by decide

/-- T42-9, T42-10, T42-41. -/
theorem test_addReg :
    gives (.addReg 1 2) (regs 0xC8 0x64 0) 0x2C 1 = true ∧ gives (.addReg 1 2) (regs 1 2 1) 3 0 = true ∧
    gives (.addReg 1 15) (regs 0xFF 0 1) 0x00 1 = true := by decide

/-- T42-14, T42-15, T42-44, and T42-42 with VF as the destination. -/
theorem test_sub :
    gives (.sub 1 2) (regs 5 7 1) 0xFE 0 = true ∧ gives (.sub 1 2) (regs 7 7 0) 0 1 = true ∧
    gives (.sub 1 15) (regs 9 0 7) 8 1 = true ∧ gives (.sub 15 2) (regs 0 3 5) 0 0xFE = true := by decide

/-- T42-17, T42-18, T42-26, T42-27, T42-48. -/
theorem test_shifts :
    gives (.shr 1 2) (regs 5 0xFF 0) 2 1 = true ∧ gives (.shr 1 2) (regs 0x80 0 1) 0x40 0 = true ∧
    gives (.shl 1 2) (regs 0x81 0xFF 0) 2 1 = true ∧ gives (.shl 1 2) (regs 0x40 0 1) 0x80 0 = true ∧
    gives (.shl 15 0) (regs 0 0 0x81) 0 2 = true := by decide

/-- T42-20, T42-21, T42-25, T42-49. -/
theorem test_subn :
    gives (.subn 1 2) (regs 5 7 0) 2 1 = true ∧ gives (.subn 1 2) (regs 7 5 1) 0xFE 0 = true ∧
    gives (.subn 1 1) (regs 9 0 0) 0 1 = true ∧ gives (.subn 15 2) (regs 0 10 3) 0 1 = true := by decide

/-- T42-29. -/
theorem test_rnd : gives (.rnd 1 0x0F) ((regs 0 0 0).presentRnd (some 0xB7)) 0x07 0 = true := by decide

/-! ### Index and memory -/

/-- T43-1. -/
theorem test_ldI : after (exec (.ldI 0xFFF) State.reset) (fun t => t.iReg == 0xFFF && t.pc == 0x202) = true := by decide

/-- S5, T43-3. -/
theorem test_addI :
    after (exec (.addI 1) ((regs 2 0 0).setIndex 0x0FFF)) (fun t => t.iReg == 0x1001 && t.reg VF == 1) = true ∧
    after (exec (.addI 1) ((regs 1 0 0).setIndex 0xFFFF)) (fun t => t.iReg == 0 && t.reg VF == 1) = true := by decide

/-- T43-2 with the parameter at both its values. -/
theorem test_addI_parameter :
    after (exec (.addI 1) ((regs 1 0 7).setIndex 0x0FFE)) (fun t => t.iReg == 0x0FFF && t.reg VF == 0) = true ∧
    after (exec (.addI 1) { (regs 1 0 7).setIndex 0x0FFE with config := ⟨16, false, true⟩ }) (fun t => t.reg VF == 7) = true := by
  decide

/-- T43-8, T43-9. -/
theorem test_bcd :
    after (exec (.bcd 1) ((regs 255 0 0).setIndex 0xFFD)) (fun t => t.mem == [(0xFFD, 2), (0xFFE, 5), (0xFFF, 5)]) = true ∧
    after (exec (.bcd 1) ((regs 255 0 0).setIndex 0xFFE)) (fun t =>
      t.fault == ⟨.outOfBounds, 0x200, 0xF133, 0x1000⟩ && t.mem == []) = true := by decide

/-- T43-11, T43-13. -/
theorem test_stm :
    after (exec (.stm 1) (((regs 0xBB 0xCC 0).setReg 0 0xAA).setIndex 0x300)) (fun t =>
      t.mem == [(0x300, 0xAA), (0x301, 0xBB)] && t.iReg == 0x300) = true ∧
    after (exec (.stm 15) (State.reset.setIndex 0xFF1)) (fun t => t.fault == ⟨.outOfBounds, 0x200, 0xFF55, 0x1000⟩) = true := by
  decide

/-- T43-15, T43-16. -/
theorem test_ldm :
    after (exec (.ldm 2) ((at300 [2, 3, 4, 5]).setReg 3 0x77)) (fun t =>
      t.reg 0 == 2 && t.reg 1 == 3 && t.reg 2 == 4 && t.reg 3 == 0x77) = true ∧
    after (exec (.ldm 15) (State.reset.setIndex 0xFF1)) (fun t => t.fault == ⟨.outOfBounds, 0x200, 0xFF65, 0x1000⟩) = true := by
  decide

/-! ### Display -/

/-- T44-10. -/
theorem test_cls :
    after (exec .cls { regs 0 0 1 with fb := FrameBuffer.toggle State.reset.fb 31 63 }) (fun t =>
      !FrameBuffer.pixel t.fb 31 63 && t.reg VF == 1 && t.pc == 0x202) = true := by decide

/-- T44-3: both coordinates wrap, the leftmost pixel is bit 7. -/
theorem test_drw :
    after (exec (.drw 1 2 2) ((at300 [0x3C, 0xC3]).setReg 1 70 |>.setReg 2 33)) (fun t =>
      (List.finRange 64).all (fun c => FrameBuffer.pixel t.fb 1 c == [8, 9, 10, 11].contains c.val) &&
      (List.finRange 64).all (fun c => FrameBuffer.pixel t.fb 2 c == [6, 7, 12, 13].contains c.val) &&
      t.reg VF == 0) = true := by decide

/-- T44-4. -/
theorem test_drw_collision :
    after (exec (.drw 1 2 1) { at300 [0xC0] with fb := FrameBuffer.toggle State.reset.fb 0 1 }) (fun t =>
      FrameBuffer.pixel t.fb 0 0 && !FrameBuffer.pixel t.fb 0 1 && t.reg VF == 1) = true := by decide

/-! ### Keypad and timers -/

/-- T45-1, T45-2. -/
theorem test_key_skips :
    after (exec (.skp 1) ((regs 10 0 0).putKey 10 true)) (fun t => t.pc == 0x204) = true ∧
    after (exec (.sknp 1) ((regs 10 0 0).putKey 10 true)) (fun t => t.pc == 0x202) = true := by decide

/-- T45-3, T45-4. -/
theorem test_bad_key_index :
    after (exec (.skp 2) (regs 0 0x10 0)) (fun t => t.fault == ⟨.badKeyIndex, 0x200, 0xE29E, 0x10⟩) = true ∧
    after (exec (.sknp 2) (regs 0 0xFF 0)) (fun t => t.fault == ⟨.badKeyIndex, 0x200, 0xE2A1, 0xFF⟩) = true := by decide

/-- T45-6. -/
theorem test_key_latched :
    after (exec (.ldVxKey 2) ((State.reset.putKey 9 true).putKey 5 true)) (fun t => t.kw == some 5 && t.pc == 0x200) = true := by
  decide

/-- T45-9. -/
theorem test_key_released :
    after (exec (.ldVxKey 2) (State.reset.setKw (some 5))) (fun t => t.reg 2 == 5 && t.kw == none && t.pc == 0x202) = true := by
  decide

/-- T46-1 to T46-3. -/
theorem test_timers :
    after (exec (.ldVxDt 4) (State.reset.setDt 0x2C)) (fun t => t.reg 4 == 0x2C && t.dt == 0x2C) = true ∧
    after (exec (.ldDtVx 1) (regs 0x3C 0 0)) (fun t => t.dt == 0x3C && t.st == 0) = true ∧
    after (exec (.ldStVx 1) (regs 5 0 0)) (fun t => t.st == 5 && !t.beep && t.dt == 0) = true := by decide

/-! ### Witnesses: states and operands that meet the hypotheses of each statement, clause by clause at the boundaries -/

/-- INIT lined up, and INIT recurring. -/
theorem witness_InitResetsEveryPieceOfState :
    (dirty.withEvents [.init, .tick]).host.events.next = .init ∧
    (dirty.withSource (.repeating .init [])).host.events.next = .init := ⟨rfl, rfl⟩

theorem witness_ResetStateIsWhatInitLeaves :
    (dirty.withEvents [.init]).config = State.reset.config ∧ (dirty.withEvents [.init]).host.events.next = .init := ⟨rfl, rfl⟩

/-- The longest program. -/
theorem witness_LoadCopiesTheProgramAndNothingElse :
    (dirty.withEvents [.load (List.replicate 3584 0xAB)]).host.events.next = .load (List.replicate 3584 0xAB) ∧
    (List.replicate 3584 (0xAB : Byte)).length ≤ 3584 := ⟨rfl, by rw [List.length_replicate]⟩

/-- One byte too many, and the longest program. -/
theorem witness_OversizedLoadIsRejectedBeforeAnyMutation :
    ((dirty.withEvents [.load (List.replicate 3585 0xAB)]).host.events.next = .load (List.replicate 3585 0xAB) ∧
      (List.replicate 3585 (0xAB : Byte)).length > 3584) ∧
    ((dirty.withEvents [.load (List.replicate 3584 0xAB)]).host.events.next = .load (List.replicate 3584 0xAB) ∧
      (List.replicate 3584 (0xAB : Byte)).length = 3584) :=
  ⟨⟨rfl, by rw [List.length_replicate]; decide⟩, rfl, List.length_replicate ..⟩

theorem witness_SetKeyWritesOneKeyLevel :
    (dirty.withEvents [.setKey 15 true]).host.events.next = .setKey 15 true := rfl

/-- ST at 2 and at 1: BEEP on, and off. -/
theorem witness_TickCountsBothTimersAndSetsBeep :
    ((State.reset.setSt 2).withEvents [.tick]).host.events.next = .tick ∧ (State.reset.setSt 2).st.toNat ≥ 2 ∧
    ((State.reset.setSt 1).withEvents [.tick]).host.events.next = .tick ∧ ¬ (State.reset.setSt 1).st.toNat ≥ 2 :=
  ⟨rfl, by decide, rfl, by decide⟩

/-- Ticks lined up, and ticks recurring, BEEP off and on at the end. -/
theorem witness_TicksInARowCountDownToZero :
    (dirty.withEvents [.tick, .tick, .tick, .init]).host.events.first 3 = List.replicate 3 .tick ∧
    (dirty.withSource (.repeating .tick [])).host.events.first 9 = List.replicate 9 .tick ∧
    decide (dirty.st.toNat > 9) = false ∧ decide (dirty.st.toNat > 3) = true := by decide

/-- The lowest pc with no event lined up, the highest with a CYCLE lined up. -/
theorem witness_StepRunsTheDecodedInstruction :
    ((at200 0x6005).fault.cause = .noFault ∧ (at200 0x6005).pc.toNat ≤ 0xFFE ∧
      (at200 0x6005).host.events.next = .cycle none ∧
      decode (BitVec.ofNat 16 (((at200 0x6005).mem.read (at200 0x6005).pc.toNat).toNat * 256 +
        ((at200 0x6005).mem.read ((at200 0x6005).pc.toNat + 1)).toNat)) = .ok (.ldImm 0 5)) ∧
    let s := (((State.reset.setPc 0xFFE).placeWord 0x6001).withEvents [.cycle (some 0xB7)])
    s.fault.cause = .noFault ∧ s.pc.toNat = 0xFFE ∧ s.host.events.next = .cycle (some 0xB7) ∧
      decode (BitVec.ofNat 16 ((s.mem.read s.pc.toNat).toNat * 256 + (s.mem.read (s.pc.toNat + 1)).toNat)) = .ok (.ldImm 0 1) := by
  decide

/-- A CYCLE lined up, and one of the source. -/
theorem witness_FaultedCycleChangesNothing :
    dirty.fault.cause ≠ .noFault ∧ (dirty.withEvents [.cycle (some 0)]).host.events.next = .cycle (some 0) ∧
    dirty.host.events.next = .cycle none := by decide

/-- The first pc past the last fetch, and the last pc of all. -/
theorem witness_FetchPastTheEndRaisesOutOfBounds :
    (State.reset.setPc 0xFFF).fault.cause = .noFault ∧ (State.reset.setPc 0xFFF).pc.toNat > 0xFFE ∧
    (State.reset.setPc 0xFFF).host.events.next = .cycle none ∧ (State.reset.setPc 0xFFFF).pc.toNat > 0xFFE ∧
    ((State.reset.setPc 0xFFFF).withEvents [.cycle (some 7)]).host.events.next = .cycle (some 7) := by decide

/-- The word 0 is no instruction's: every opcode nibble is above 0 but for CLS and RET. -/
theorem witness_IllegalWordRaisesUnimplementedOpcode :
    State.reset.fault.cause = .noFault ∧ State.reset.pc.toNat ≤ 0xFFE ∧
    0 = wordOfBytes (State.reset.mem.read State.reset.pc.toNat) (State.reset.mem.read (State.reset.pc.toNat + 1)) ∧
    (∀ i, encode i ≠ 0) ∧ State.reset.host.events.next = .cycle none := by
  refine ⟨rfl, by decide, rfl, fun i h => ?_, rfl⟩
  have hw := congrArg BitVec.toNat h
  cases i with
  | cls | ret => exact absurd hw (by decide)
  | jp | call | ldI | jpV0 => rw [encode, toNat_encodeA _ _ (by decide)] at hw; simp at hw
  | seImm | sneImm | ldImm | addImm | rnd => rw [encode, toNat_encodeXI _ _ _ (by decide)] at hw; simp at hw
  | drw x y n => rw [encode, toNat_encodeXYN _ _ _ _ (by decide) n.isLt] at hw; simp at hw
  | skp | sknp | ldVxDt | ldVxKey | ldDtVx | ldStVx | addI | bcd | stm | ldm =>
    rw [encode, toNat_encodeXF _ _ _ (by decide) (by decide)] at hw; simp at hw
  | seReg | ldReg | or | and | xor | addReg | sub | shr | subn | shl | sneReg =>
    rw [encode, toNat_encodeXYN _ _ _ _ (by decide) (by decide)] at hw; simp at hw

theorem witness_RecordedFaultStaysUntilInit :
    dirty.fault.cause ≠ .noFault ∧ (dirty.withEvents [.tick]).host.events.next ≠ .init ∧
    ∃ t, step (dirty.withEvents [.tick]) = .next t := ⟨by decide, by decide, _, rfl⟩

/-- One for each kind of fault. -/
theorem witness_ExecuteFaultsArePreciseAndBelongToTheirInstruction :
    (∃ t, exec .ret State.reset = .next t ∧ t.fault ≠ State.reset.fault) ∧
    (∃ t, exec (.call 0x300) (called 16) = .next t ∧ t.fault ≠ (called 16).fault) ∧
    (∃ t, exec (.bcd 0) (State.reset.setIndex 0xFFE) = .next t ∧ t.fault ≠ State.reset.fault) ∧
    (∃ t, exec (.drw 0 0 5) (State.reset.setIndex 0xFFC) = .next t ∧ t.fault ≠ State.reset.fault) ∧
    (∃ t, exec (.skp 1) (regs 16 0 0) = .next t ∧ t.fault ≠ (regs 16 0 0).fault) :=
  ⟨⟨_, rfl, by decide⟩, ⟨_, rfl, by decide⟩, ⟨_, rfl, by decide⟩, ⟨_, rfl, by decide⟩, ⟨_, rfl, by decide⟩⟩

/-- A next state in which the part of each clause has changed. -/
theorem witness_EachPieceOfStateHasItsOwnWriters :
    (∃ t, exec (.ldDtVx 1) (regs 5 0 0) = .next t ∧ t.dt ≠ 0) ∧ (∃ t, exec (.ldStVx 1) (regs 5 0 0) = .next t ∧ t.st ≠ 0) ∧
    (∃ t, exec (.ldVxKey 1) (State.reset.putKey 5 true) = .next t ∧ t.kw ≠ none) ∧
    (∃ t, exec (.ldI 0xFFF) State.reset = .next t ∧ t.iReg ≠ 0) ∧
    (∃ t, exec (.bcd 1) ((regs 255 0 0).setIndex 0xFFD) = .next t ∧ t.mem.read 0xFFF ≠ 0) ∧
    (∃ t, exec (.drw 1 2 1) (at300 [0x80]) = .next t ∧ FrameBuffer.pixel t.fb 0 0 ≠ false) ∧
    (∃ t, exec (.call 0x300) State.reset = .next t ∧ t.sp ≠ 0 ∧ t.stack ≠ State.reset.stack) ∧
    (∃ t, exec (.rnd 1 0) State.reset = .next t ∧ t.host.rndCount ≠ 0) :=
  ⟨⟨_, rfl, by decide⟩, ⟨_, rfl, by decide⟩, ⟨_, rfl, by decide⟩, ⟨_, rfl, by decide⟩, ⟨_, rfl, by decide⟩, ⟨_, rfl, by decide⟩,
    ⟨_, rfl, by decide⟩, ⟨_, rfl, by decide⟩⟩

theorem witness_RegistersAreWrittenOnlyAsDestinationOrFlag :
    (∃ t, exec (.addReg 1 2) (regs 0xFF 1 0) = .next t ∧ t.reg VF ≠ (regs 0xFF 1 0).reg VF) ∧
    (∃ t, exec (.ldm 2) (at300 [2, 3, 4]) = .next t ∧ t.reg 2 ≠ (at300 [2, 3, 4]).reg 2) :=
  ⟨⟨_, rfl, by decide⟩, ⟨_, rfl, by decide⟩⟩

theorem witness_OnlyRndReadsTheRandomInput :
    (∀ x nn, Instr.addImm 1 2 ≠ .rnd x nn) ∧ ∃ t, exec (.addImm 1 2) State.reset = .next t := ⟨fun _ _ => by simp, _, rfl⟩

theorem witness_EncodeOfDecodeIsTheWord : decode 0x812E#16 = .ok (.shl 1 2) ∧ decode 0xFF65#16 = .ok (.ldm 15) := by decide

/-- A word of the table and one beside it. -/
theorem witness_DecoderAgreesWithTheOpcodeTable :
    decode 0x5120#16 = .ok (.seReg 1 2) ∧ ∀ i, decode 0x5121#16 ≠ .ok i := by
  refine ⟨by decide, fun i h => ?_⟩
  rw [show decode 0x5121#16 = .error (.illegal 0x5121#16) by decide] at h
  cases h

/-- 41_control_flow.md: the deepest stack and the shallowest live one, and the empty one. -/
theorem witness_RetPopsTheReturnAddress :
    (0 < (called 16).sp ∧ (called 16).stack[(called 16).sp - 1]? = some 0x202) ∧
    (0 < (called 1).sp ∧ (called 1).stack[(called 1).sp - 1]? = some 0x202) ∧ (called 0).sp = 0 := by decide

/-- The last free slot, and none left. -/
theorem witness_CallPushesTheReturnAddress :
    ((called 15).stack.length = (called 15).config.stackDepth ∧ (called 15).sp < (called 15).config.stackDepth) ∧
    (called 16).sp = (called 16).config.stackDepth := by decide

/-- A self-jump at the reset vector and at the highest address a fetch can have. -/
theorem witness_JpToItselfChangesNothing :
    ((at200 0x1200).fault.cause = .noFault ∧ (at200 0x1200).pc.toNat ≤ 0xFFE ∧ (at200 0x1200).host.events.next = .cycle none ∧
      wordOfBytes ((at200 0x1200).mem.read (at200 0x1200).pc.toNat) ((at200 0x1200).mem.read ((at200 0x1200).pc.toNat + 1)) =
        0x1000 + (at200 0x1200).pc) ∧
    let s := ((State.reset.setPc 0xFFE).placeWord 0x1FFE).withEvents [.cycle (some 7)]
    s.fault.cause = .noFault ∧ s.pc.toNat = 0xFFE ∧ s.host.events.next = .cycle (some 7) ∧
      wordOfBytes (s.mem.read s.pc.toNat) (s.mem.read (s.pc.toNat + 1)) = 0x1000 + s.pc := by decide

/-- A call with a live even return address below it, and an indexed jump to an even sum. -/
theorem witness_PcStaysEvenWithEvenTargets :
    ((called 1).pc.toNat % 2 = 0 ∧ (∀ j, j < (called 1).sp → ((called 1).slot j).toNat % 2 = 0) ∧
      (∀ nnn : Addr12, Instr.call 0x304 = .jp nnn ∨ Instr.call 0x304 = .call nnn → nnn.toNat % 2 = 0) ∧
      (∀ nnn : Addr12, Instr.call 0x304 = .jpV0 nnn → (((called 1).reg 0).toNat + nnn.toNat) % 2 = 0) ∧
      ∃ t, exec (.call 0x304) (called 1) = .next t) ∧
    (∀ nnn : Addr12, Instr.jpV0 0x203 = .jpV0 nnn → (((State.reset.setReg 0 1).reg 0).toNat + nnn.toNat) % 2 = 0) := by
  refine ⟨⟨by decide, by decide, fun nnn h => ?_, fun nnn h => (by cases h), _, rfl⟩, fun nnn h => ?_⟩
  · cases h with
    | inl h => cases h
    | inr h => cases h; decide
  · cases h; decide

/-- A register for each of the cases by x = F and y = F, and both sides of each comparison of SUB and SUBN. -/
theorem witness_flag_cases :
    (14 : Reg) ≠ VF ∧ (15 : Reg) = VF ∧ ((regs 7 7 0).reg 1).toNat ≥ ((regs 7 7 0).reg 2).toNat ∧
    ¬ ((regs 6 7 0).reg 1).toNat ≥ ((regs 6 7 0).reg 2).toNat ∧
    ((regs 0 9 0).reg 2).toNat = (((regs 0 9 0).reg 2).toNat + 256 - ((regs 0 9 0).reg 1).toNat) % 256 := by decide

theorem witness_RndMasksTheRandomByte :
    (State.reset.presentRnd (some 0xB7)).host.rndIn = some 0xB7 ∧ State.reset.host.rndIn = none := by decide

/-- Both sides of 0xFFF. -/
theorem witness_AddIAddsAndReportsPastTheEnd :
    ((regs 1 0 0).setIndex 0xFFE).iReg.toNat + (((regs 1 0 0).setIndex 0xFFE).reg 1).toNat ≤ 0xFFF ∧
    ((regs 1 0 0).setIndex 0xFFF).iReg.toNat + (((regs 1 0 0).setIndex 0xFFF).reg 1).toNat > 0xFFF := by decide

/-- The last legal I and the first illegal one, for Fx33 and for F155 and F165. -/
theorem witness_transfers_at_the_end_of_memory :
    (State.reset.setIndex 0xFFD).iReg.toNat + 2 ≤ 0xFFF ∧ (State.reset.setIndex 0xFFE).iReg.toNat + 2 > 0xFFF ∧
    (State.reset.setIndex 0xFFE).iReg.toNat + (1 : Reg).val ≤ 0xFFF ∧
    (State.reset.setIndex 0xFFF).iReg.toNat + (1 : Reg).val > 0xFFF := by decide

/-- Two registers stored, wiped and loaded again (S7). -/
theorem witness_StoreThenLoadGivesTheRegistersBack :
    let s := (regs 0x22 0 0).setIndex 0xFFE
    s.iReg.toNat + (1 : Reg).val ≤ 0xFFF ∧ ∃ t v, exec (.stm 1) s = .next t ∧
      OnlyChanges t (t.setReg 1 0) (fun p => (∃ r, p = .reg r) ∨ p = .pc) ∧ exec (.ldm 1) (t.setReg 1 0) = .next v ∧
      (1 : Reg) ≤ 1 :=
  ⟨by decide, _, _, rfl, fun p hp => by cases p <;> simp_all [Part.same], rfl, by decide⟩

/-- P6: the store that writes the next instruction. -/
theorem witness_StoredBytesAreFetchedAsWritten :
    (1 : Reg) ≤ 1 ∧ (State.reset.setIndex 0x202).iReg.toNat + (1 : Reg).val ≤ 0xFFF ∧
    (State.reset.setIndex 0x202).pc + 2 = (State.reset.setIndex 0x202).iReg ∧
    ∃ t, exec (.stm 1) (State.reset.setIndex 0x202) = .next t := ⟨by decide, by decide, by decide, _, rfl⟩

/-- No row at an I outside memory (T44-6), the last row at 0xFFF (T44-7), one past it (T44-8). -/
theorem witness_DrwXorsTheWrappedSprite :
    ((0 : Nibble) = 0 ∨ (State.reset.setIndex 0x2000).iReg.toNat + (0 : Nibble).toNat - 1 ≤ 0xFFF) ∧
    ((4 : Nibble) = 0 ∨ (State.reset.setIndex 0xFFC).iReg.toNat + (4 : Nibble).toNat - 1 ≤ 0xFFF) ∧
    ((5 : Nibble) ≠ 0 ∧ (State.reset.setIndex 0xFFC).iReg.toNat + (5 : Nibble).toNat - 1 > 0xFFF) := by decide

/-- S8. -/
theorem witness_DrawingTwiceRestoresTheScreen :
    ((1 : Nibble) = 0 ∨ (at300 [0x80]).iReg.toNat + (1 : Nibble).toNat - 1 ≤ 0xFFF) ∧
    ∃ t u, exec (.drw 0 1 1) (at300 [0x80]) = .next t ∧ t.reg 0 = (at300 [0x80]).reg 0 ∧ t.reg 1 = (at300 [0x80]).reg 1 ∧
      exec (.drw 0 1 1) t = .next u := ⟨by decide, _, _, rfl, rfl, rfl, rfl⟩

/-- The last key index and the first value that is none. -/
theorem witness_KeySkipsTestTheKeyLevel :
    ((regs 15 0 0).reg 1).toNat = (15 : Reg).val ∧ ((regs 16 0 0).reg 1).toNat > 15 := by decide

/-- The four rows of the state table, the latched key being the least (5, with 9 held too) or the last (15). -/
theorem witness_KeyWaitFollowsItsStateTable :
    (State.reset.kw = none ∧ ∀ k, State.reset.key k = false) ∧
    (let s := (State.reset.putKey 9 true).putKey 5 true;
      s.kw = none ∧ s.key 5 = true ∧ ∀ j : Reg, j < 5 → s.key j = false) ∧
    (let s := (State.reset.putKey 15 true).setKw (some 15);
      s.kw = some 15 ∧ s.key 15 = true) ∧
    (let s := State.reset.setKw (some 15);
      s.kw = some 15 ∧ s.key 15 = false) := by decide

/-- One live return address. -/
theorem witness_StepKeepsTheInvariant : (called 1).Inv ∧ ∃ t, step (called 1) = .next t :=
  ⟨⟨by decide, by decide, by decide, by decide, by decide, by decide, by decide⟩, _, rfl⟩

/-- One event lined up; CYCLE and TICK recurring; a free stream. -/
theorem witness_StepDoesTheNextEvent :
    (dirty.withEvents [.tick, .init]).host.events.pending = .tick :: [.init] ∧
    (dirty.withSource (.repeating (.cycle none) [.tick])).host.events =
      { pending := [], later := .repeating (.cycle none) [.tick] } ∧
    (dirty.withSource (.free 0 5)).host.events = { pending := [], later := .free 0 5 } := by decide

theorem witness_RecurringEventsRecurForEver :
    (dirty.withSource (.repeating (.cycle none) [.tick, .setKey 3 true])).host.events =
      { pending := [], later := .repeating (.cycle none) [.tick, .setKey 3 true] } := by decide

end Sys2Proof.Tests
end

section
/-!
PROOFS. Control flow (spec/41_control_flow.md): the frames of a write to pc and of a write to SP, what RET, JP and the register
skips answer, and the statements they settle.
-/

namespace Sys2Proof.Machine

variable (s : State)

/-! ### Frames of the two writes -/

/-- Writing pc leaves every other part alone (R23). -/
theorem onlyChanges_setPc (w : Word) : OnlyChanges s (s.setPc w) (fun p => p = .pc) := fun p hp => by
  cases p
  case pc => exact absurd rfl hp
  all_goals rfl

/-- Writing SP leaves every other part alone, the slots included (R27). -/
theorem onlyChanges_setSp (n : Nat) : OnlyChanges s (s.setSp n) (fun p => p = .sp) := fun p hp => by
  cases p
  case sp => exact absurd rfl hp
  all_goals rfl

/-! ### RET (R100) -/

theorem State.slot_of_getElem? {j : Nat} {w : Word} (h : s.stack[j]? = some w) : s.slot j = w := by
  rw [State.slot, List.getD_eq_getElem?_getD, h, Option.getD_some]

theorem exec_ret_of_sp_eq_zero (h : s.sp = 0) :
    exec .ret s = .next (s.raise .stackUnderflow (encode .ret) 0) :=
  if_pos h

theorem exec_ret_of_sp_pos (h : 0 < s.sp) :
    exec .ret s = .next ((s.setSp (s.sp - 1)).setPc (s.slot (s.sp - 1))) :=
  if_neg h.ne'

/-- Settles O23: with a live slot RET is a write of SP followed by a write of pc, without one it raises the fault. -/
theorem retPopsTheReturnAddress : Obligations.RetPopsTheReturnAddress := by
  unfold Obligations.RetPopsTheReturnAddress
  refine fun s => ⟨rfl, fun ra hsp hra => ?_, fun hsp => ?_⟩
  · have hframe := ((onlyChanges_setSp s (s.sp - 1)).mono fun _ => Or.inl).trans
      ((onlyChanges_setPc (s.setSp (s.sp - 1)) (s.slot (s.sp - 1))).mono fun _ => Or.inr)
    exact ⟨_, exec_ret_of_sp_pos s hsp, rfl, s.slot_of_getElem? hra, hframe⟩
  · exact ⟨_, exec_ret_of_sp_eq_zero s hsp, raisedOnly_raise ..⟩

/-! ### JP (R101) -/

theorem exec_jp (nnn : Addr12) : exec (.jp nnn) s = .next (s.setPc (zextAddr nnn)) := rfl

/-- Settles O24: JP is a write of pc, and zero-extension keeps the number. -/
theorem jpSetsPcToTheTarget : Obligations.JpSetsPcToTheTarget := by
  unfold Obligations.JpSetsPcToTheTarget
  exact fun nnn s => ⟨toNat_encodeA 1 nnn (by decide), _, exec_jp s nnn, toNat_zextAddr nnn, onlyChanges_setPc s _⟩

/-! ### The register skips (R104 to R107) -/

theorem exec_seImm (x : Reg) (nn : Byte) : exec (.seImm x nn) s = .next (s.skipIf (s.reg x == nn)) := rfl
theorem exec_sneImm (x : Reg) (nn : Byte) : exec (.sneImm x nn) s = .next (s.skipIf (s.reg x != nn)) := rfl
theorem exec_seReg (x y : Reg) : exec (.seReg x y) s = .next (s.skipIf (s.reg x == s.reg y)) := rfl
theorem exec_sneReg (x y : Reg) : exec (.sneReg x y) s = .next (s.skipIf (s.reg x != s.reg y)) := rfl

/-- An instruction that answers a skip on a test of `P` moves pc by 4 if `P` holds and by 2 otherwise, and does nothing
else (R24). -/
theorem exec_skip_spec {i : Instr} {c : Bool} {P : Prop} [Decidable P] (h : exec i s = .next (s.skipIf c))
    (hc : c = true ↔ P) :
    ∃ t, exec i s = .next t ∧ t.pc = (if P then s.pc + 4 else s.pc + 2) ∧ OnlyChanges s t (fun p => p = .pc) :=
  ⟨_, h, if_congr hc rfl rfl, onlyChanges_setPc s _⟩

/-- Settles O27: each of the four is a skip, on `==` or `!=` of its two operands. -/
theorem registerSkipsMovePcByFourOrTwo : Obligations.RegisterSkipsMovePcByFourOrTwo := by
  unfold Obligations.RegisterSkipsMovePcByFourOrTwo
  refine fun x y nn s => ⟨⟨?_, ?_⟩, ⟨?_, ?_⟩, ⟨?_, ?_⟩, ⟨?_, ?_⟩⟩
  · exact toNat_encodeXI 3 x nn (by decide)
  · exact exec_skip_spec s (exec_seImm s x nn) beq_iff_eq
  · exact toNat_encodeXI 4 x nn (by decide)
  · exact exec_skip_spec s (exec_sneImm s x nn) bne_iff_ne
  · exact toNat_encodeXYN 5 x y 0 (by decide) (by decide)
  · exact exec_skip_spec s (exec_seReg s x y) beq_iff_eq
  · exact toNat_encodeXYN 9 x y 0 (by decide) (by decide)
  · exact exec_skip_spec s (exec_sneReg s x y) bne_iff_ne

end Sys2Proof.Machine
end

section
/-!
PROOFS. Loads, immediate addition and logic (spec/42_load_alu.md, R120 to R125): the frame of a write to a V register, what an
instruction that writes one register and moves on to the next word does, and the statements this settles.
-/

namespace Sys2Proof.Machine

variable (s : State)

/-! ### A write to a V register, and the move to the next word after it -/

/-- Writing V[x] leaves every other part alone, the other registers and VF among them (R20). -/
theorem onlyChanges_setReg (x : Reg) (b : Byte) : OnlyChanges s (s.setReg x b) (fun p => p = .reg x) := fun p hp => by
  cases p
  case reg r =>
    have hr : r ≠ x := fun h => hp (congrArg Part.reg h)
    rw [Part.same, State.reg_setReg, if_neg hr]
  all_goals rfl

theorem reg_setReg_advance (x : Reg) (b : Byte) : (s.setReg x b).advance.reg x = b := by
  rw [State.advance_eq, State.reg_setPc, State.reg_setReg, if_pos rfl]

theorem onlyChanges_setReg_advance (x : Reg) (b : Byte) :
    OnlyChanges s (s.setReg x b).advance (fun p => p = .reg x ∨ p = .pc) :=
  ((onlyChanges_setReg s x b).mono fun _ => Or.inl).trans ((onlyChanges_setPc (s.setReg x b) _).mono fun _ => Or.inr)

/-! ### What the six instructions answer -/

theorem exec_ldImm (x : Reg) (nn : Byte) : exec (.ldImm x nn) s = .next (s.setReg x nn).advance := rfl
theorem exec_addImm (x : Reg) (nn : Byte) :
    exec (.addImm x nn) s = .next (s.setReg x (byteOf ((s.reg x).toNat + nn.toNat))).advance := rfl
theorem exec_ldReg (x y : Reg) : exec (.ldReg x y) s = .next (s.setReg x (s.reg y)).advance := rfl
theorem exec_or (x y : Reg) : exec (.or x y) s = .next (s.setReg x (s.reg x ||| s.reg y)).advance := rfl
theorem exec_and (x y : Reg) : exec (.and x y) s = .next (s.setReg x (s.reg x &&& s.reg y)).advance := rfl
theorem exec_xor (x y : Reg) : exec (.xor x y) s = .next (s.setReg x (s.reg x ^^^ s.reg y)).advance := rfl

/-! ### Loads and immediate addition (R120 to R122) -/

/-- Settles O30: both are a write of V[x], by nn or by V[y], and a move to the next word. -/
theorem loadsWriteTheirDestination : Obligations.LoadsWriteTheirDestination := by
  unfold Obligations.LoadsWriteTheirDestination
  refine fun x y nn s => ⟨⟨?_, ?_⟩, ⟨?_, ?_⟩⟩
  · exact toNat_encodeXI 6 x nn (by decide)
  · exact ⟨_, exec_ldImm s x nn, reg_setReg_advance s x _, rfl, onlyChanges_setReg_advance s x _⟩
  · exact toNat_encodeXYN 8 x y 0 (by decide) (by decide)
  · exact ⟨_, exec_ldReg s x y, reg_setReg_advance s x _, rfl, onlyChanges_setReg_advance s x _⟩

/-- Settles O31: a write of V[x] by the sum taken modulo 256, and no second write that could reach VF. -/
theorem addImmWrapsAndWritesNoFlag : Obligations.AddImmWrapsAndWritesNoFlag := by
  unfold Obligations.AddImmWrapsAndWritesNoFlag
  intro x nn s
  have hsum : ((s.setReg x (byteOf ((s.reg x).toNat + nn.toNat))).advance.reg x).toNat =
      ((s.reg x).toNat + nn.toNat) % 256 := by
    rw [reg_setReg_advance, toNat_byteOf]
  exact ⟨toNat_encodeXI 7 x nn (by decide), _, exec_addImm s x nn, hsum, rfl, onlyChanges_setReg_advance s x _⟩

/-! ### Logic (R123 to R125) -/

/-- The words of opcode nibble 0x8, with the function added to the fixed part as the table writes it (R75). -/
theorem toNat_encodeXYN_8 (x y : Reg) (func : Nat) (h : func < 16) :
    (encodeXYN 8 x y func).toNat = (0x8000 + func) + x.val * 256 + y.val * 16 := by
  rw [toNat_encodeXYN 8 x y func (by decide) h]
  omega

/-- An instruction that writes V[x] by an operation on V[x] and V[y] and moves on gives each bit of V[x] by the operation's
truth table `bit` on the old bits, and does nothing else. -/
theorem exec_bitwise_spec {i : Instr} {x y : Reg} {op : Byte → Byte → Byte} {bit : Bool → Bool → Bool}
    (h : exec i s = .next (s.setReg x (op (s.reg x) (s.reg y))).advance)
    (hop : ∀ (a c : Byte) (b : Nat), (op a c).getLsbD b = bit (a.getLsbD b) (c.getLsbD b)) :
    ∃ t, exec i s = .next t ∧
      (∀ b, b < 8 → (t.reg x).getLsbD b = bit ((s.reg x).getLsbD b) ((s.reg y).getLsbD b)) ∧ t.pc = s.pc + 2 ∧
      OnlyChanges s t (fun p => p = .reg x ∨ p = .pc) :=
  ⟨_, h, fun b _ => by rw [reg_setReg_advance, hop], rfl, onlyChanges_setReg_advance s x _⟩

/-- Settles O32: each of the three is such an instruction, and `|||`, `&&&` and `^^^` are OR, AND and XOR on every bit. -/
theorem logicIsBitwiseAndWritesNoFlag : Obligations.LogicIsBitwiseAndWritesNoFlag := by
  unfold Obligations.LogicIsBitwiseAndWritesNoFlag
  refine fun x y s => ⟨⟨?_, ?_⟩, ⟨?_, ?_⟩, ⟨?_, ?_⟩⟩
  · exact toNat_encodeXYN_8 x y 1 (by decide)
  · exact exec_bitwise_spec s (exec_or s x y) fun _ _ _ => BitVec.getLsbD_or
  · exact toNat_encodeXYN_8 x y 2 (by decide)
  · exact exec_bitwise_spec s (exec_and s x y) fun _ _ _ => BitVec.getLsbD_and
  · exact toNat_encodeXYN_8 x y 3 (by decide)
  · exact exec_bitwise_spec s (exec_xor s x y) fun _ _ _ => BitVec.getLsbD_xor

end Sys2Proof.Machine
end

section
/-!
PROOFS. The index register (spec/43_index_memory.md): the frame of a write to I, what LD_I answers, and the statement it
settles.
-/

namespace Sys2Proof.Machine

variable (s : State)

/-- Writing I leaves every other part alone (R22). -/
theorem onlyChanges_setIndex (w : Word) : OnlyChanges s (s.setIndex w) (fun p => p = .index) := fun p hp => by
  cases p
  case index => exact absurd rfl hp
  all_goals rfl

theorem onlyChanges_setIndex_advance (w : Word) :
    OnlyChanges s (s.setIndex w).advance (fun p => p = .index ∨ p = .pc) :=
  ((onlyChanges_setIndex s w).mono fun _ => Or.inl).trans ((onlyChanges_setPc (s.setIndex w) _).mono fun _ => Or.inr)

/-! ### LD_I (R150) -/

theorem exec_ldI (nnn : Addr12) : exec (.ldI nnn) s = .next (s.setIndex (zextAddr nnn)).advance := rfl

/-- Settles O39: LD_I is a write of I and a move to the next word, and zero-extension keeps the number. -/
theorem ldISetsTheIndex : Obligations.LdISetsTheIndex := by
  unfold Obligations.LdISetsTheIndex
  refine fun nnn s => ⟨?_, ?_⟩
  · exact toNat_encodeA 0xA nnn (by decide)
  · exact ⟨_, exec_ldI s nnn, toNat_zextAddr nnn, rfl, onlyChanges_setIndex_advance s _⟩

end Sys2Proof.Machine
end

section
/-!
PROOFS. The display (spec/44_display.md): the frame of a write to the framebuffer, what CLS answers, and the statement it
settles.
-/

namespace Sys2Proof.Machine

variable (s : State)

/-- Replacing the framebuffer leaves everything but its pixels alone (R28). -/
theorem onlyChanges_setFb (fb : FrameBuffer) :
    OnlyChanges s (s.setFb fb) (fun p => ∃ row col, p = .pixel row col) := fun p hp => by
  cases p
  case pixel row col => exact absurd ⟨row, col, rfl⟩ hp
  all_goals rfl

theorem onlyChanges_setFb_advance (fb : FrameBuffer) :
    OnlyChanges s (s.setFb fb).advance (fun p => (∃ row col, p = .pixel row col) ∨ p = .pc) :=
  ((onlyChanges_setFb s fb).mono fun _ => Or.inl).trans ((onlyChanges_setPc (s.setFb fb) _).mono fun _ => Or.inr)

/-! ### CLS (R170) -/

/-- A framebuffer filled with one level has that level at every pixel. -/
theorem FrameBuffer.pixel_replicate (level : Bool) (row : Fin 32) (col : Fin 64) :
    FrameBuffer.pixel (Vector.replicate 32 (Vector.replicate 64 level)) row col = level := by
  simp only [FrameBuffer.pixel, Fin.getElem_fin, Vector.getElem_replicate]

theorem exec_cls : exec .cls s = .next (s.setFb (Vector.replicate 32 (Vector.replicate 64 false))).advance := rfl

/-- Settles O46: CLS replaces the framebuffer by the one filled with 0 and moves to the next word, and no register is written. -/
theorem clsClearsEveryPixel : Obligations.ClsClearsEveryPixel := by
  unfold Obligations.ClsClearsEveryPixel
  refine fun s => ⟨?_, ?_⟩
  · rfl
  · exact ⟨_, exec_cls s, FrameBuffer.pixel_replicate false, rfl, onlyChanges_setFb_advance s _⟩

end Sys2Proof.Machine
end

section
/-!
PROOFS. The timers (spec/46_timers.md): the frame of a write to DT, what LD_VX_DT and LD_DT_VX answer, and the statement they
settle.
-/

namespace Sys2Proof.Machine

variable (s : State)

/-- Writing DT leaves every other part alone, ST and BEEP among them (R30). -/
theorem onlyChanges_setDt (b : Byte) : OnlyChanges s (s.setDt b) (fun p => p = .delay) := fun p hp => by
  cases p
  case delay => exact absurd rfl hp
  all_goals rfl

theorem onlyChanges_setDt_advance (b : Byte) :
    OnlyChanges s (s.setDt b).advance (fun p => p = .delay ∨ p = .pc) :=
  ((onlyChanges_setDt s b).mono fun _ => Or.inl).trans ((onlyChanges_setPc (s.setDt b) _).mono fun _ => Or.inr)

/-- The words of opcode nibble 0xF, with the function added to the fixed part as the table writes it (R75). -/
theorem toNat_encodeXF_F (x : Reg) (func : Nat) (h : func < 256) :
    (encodeXF 0xF x func).toNat = (0xF000 + func) + x.val * 256 := by
  rw [toNat_encodeXF 0xF x func (by decide) h]
  omega

/-! ### LD_VX_DT and LD_DT_VX (R200, R201) -/

theorem exec_ldVxDt (x : Reg) : exec (.ldVxDt x) s = .next (s.setReg x s.dt).advance := rfl
theorem exec_ldDtVx (x : Reg) : exec (.ldDtVx x) s = .next (s.setDt (s.reg x)).advance := rfl

/-- Settles O51: LD_VX_DT is a write of V[x] by DT, LD_DT_VX a write of DT by V[x], each with a move to the next word. -/
theorem delayTimerIsReadAndSet : Obligations.DelayTimerIsReadAndSet := by
  unfold Obligations.DelayTimerIsReadAndSet
  refine fun x s => ⟨⟨?_, ?_⟩, ⟨?_, ?_⟩⟩
  · exact toNat_encodeXF_F x 0x07 (by decide)
  · exact ⟨_, exec_ldVxDt s x, reg_setReg_advance s x _, rfl, onlyChanges_setReg_advance s x _⟩
  · exact toNat_encodeXF_F x 0x15 (by decide)
  · exact ⟨_, exec_ldDtVx s x, rfl, rfl, onlyChanges_setDt_advance s _⟩

end Sys2Proof.Machine
end

section
/-!
PROOFS. Reset (spec/70_reset_and_hazards.md): what the step for INIT answers, what the reset state's banks read, and the statement
they settle.
-/

namespace Sys2Proof.Machine

variable (c : Config) (h : HostSide)

/-! ### The banks of the reset state (R250) -/

theorem reg_resetWith (r : Reg) : (State.resetWith c h).reg r = 0 := Vector.getElem_replicate r.isLt

theorem key_resetWith (k : Reg) : (State.resetWith c h).key k = false := Vector.getElem_replicate k.isLt

theorem read_mem_resetWith (a : Nat) : (State.resetWith c h).mem.read a = 0 := rfl

theorem pixel_fb_resetWith (row : Fin 32) (col : Fin 64) : FrameBuffer.pixel (State.resetWith c h).fb row col = false :=
  FrameBuffer.pixel_replicate false row col

/-! ### INIT (R250) -/

/-- With INIT next the step answers the reset state, whatever the state was: only the parameters and the host's side, less the
event taken, are carried over (log entry 5). -/
theorem step_init {s : State} (hs : s.host.events.next = .init) :
    step s = .next (State.resetWith s.config s.takeEvent.host) := step_event hs

/-- Settles O1: the step answers the reset state, whose single fields are written with their values and whose banks read 0. -/
theorem initResetsEveryPieceOfState : Obligations.InitResetsEveryPieceOfState := by
  unfold Obligations.InitResetsEveryPieceOfState
  intro s hs
  refine ⟨_, step_init hs, ?regs, rfl, rfl, rfl, rfl, ?mem, ?fb, ?keys, rfl, rfl, rfl, rfl, rfl⟩
  case regs => exact reg_resetWith _ _
  case mem => exact fun a _ => read_mem_resetWith _ _ a
  case fb => exact pixel_fb_resetWith _ _
  case keys => exact key_resetWith _ _

end Sys2Proof.Machine
end

section
/-!
PROOFS. Encoding (spec/30_encoding.md): the fields of an encoded word format by format, the word made again of its
fields, a field read off a row of the table, and the statements these settle.
-/

namespace Sys2Proof

/-! ### The fields of the word of each format (R71, R72) -/

section Fields

variable {op low func : Nat} (x y : Reg) (nnn : Addr12) (nn : Byte) (n : Nibble)

@[simp] theorem opcode_encodeA (h : op < 16) : field (encodeA op nnn) 15 12 = op := by
  have := nnn.isLt
  rw [field_15_12, toNat_encodeA op nnn h]; omega

@[simp] theorem fieldNnn_encodeA (h : op < 16) : fieldNnn (encodeA op nnn) = nnn := by
  have := nnn.isLt
  exact fieldNnn_eq (by rw [toNat_encodeA op nnn h]; omega)

@[simp] theorem opcode_encodeXI (h : op < 16) : field (encodeXI op x nn) 15 12 = op := by
  have := nn.isLt
  rw [field_15_12, toNat_encodeXI op x nn h]; omega

@[simp] theorem fieldX_encodeXI (h : op < 16) : fieldX (encodeXI op x nn) = x := by
  have := nn.isLt
  exact fieldX_eq (by rw [toNat_encodeXI op x nn h]; omega)

@[simp] theorem fieldNn_encodeXI (h : op < 16) : fieldNn (encodeXI op x nn) = nn := by
  have := nn.isLt
  exact fieldNn_eq (by rw [toNat_encodeXI op x nn h]; omega)

@[simp] theorem opcode_encodeXYN (h : op < 16) (hl : low < 16) : field (encodeXYN op x y low) 15 12 = op := by
  rw [field_15_12, toNat_encodeXYN op x y low h hl]; omega

@[simp] theorem fieldX_encodeXYN (h : op < 16) (hl : low < 16) : fieldX (encodeXYN op x y low) = x :=
  fieldX_eq (by rw [toNat_encodeXYN op x y low h hl]; omega)

@[simp] theorem fieldY_encodeXYN (h : op < 16) (hl : low < 16) : fieldY (encodeXYN op x y low) = y :=
  fieldY_eq (by rw [toNat_encodeXYN op x y low h hl]; omega)

@[simp] theorem function_encodeXYN (h : op < 16) (hl : low < 16) : field (encodeXYN op x y low) 3 0 = low := by
  rw [field_3_0, toNat_encodeXYN op x y low h hl]; omega

@[simp] theorem fieldN_encodeXYN (h : op < 16) : fieldN (encodeXYN op x y n.toNat) = n :=
  fieldN_eq (by rw [← field_3_0, function_encodeXYN x y h n.isLt])

@[simp] theorem opcode_encodeXF (h : op < 16) (hf : func < 256) : field (encodeXF op x func) 15 12 = op := by
  rw [field_15_12, toNat_encodeXF op x func h hf]; omega

@[simp] theorem fieldX_encodeXF (h : op < 16) (hf : func < 256) : fieldX (encodeXF op x func) = x :=
  fieldX_eq (by rw [toNat_encodeXF op x func h hf]; omega)

@[simp] theorem function_encodeXF (h : op < 16) (hf : func < 256) : field (encodeXF op x func) 7 0 = func := by
  rw [field_7_0, toNat_encodeXF op x func h hf]; omega

end Fields

/-- Settles O19: the word's opcode nibble and function select the instruction's own arm of the decoder, and the operand
fields give the operands back. -/
theorem decodeOfEncodeIsTheInstruction : Obligations.DecodeOfEncodeIsTheInstruction := by
  unfold Obligations.DecodeOfEncodeIsTheInstruction
  intro i
  cases i
  case cls | ret => rfl
  case drw x y n => simp [encode, decode, n.isLt]
  case ldReg | or | and | xor | addReg | sub | shr | subn | shl => simp [encode, decode, decode8]
  case skp | sknp => simp [encode, decode, decodeE]
  case ldVxDt | ldVxKey | ldDtVx | ldStVx | addI | bcd | stm | ldm => simp [encode, decode, decodeF]
  all_goals simp [encode, decode]

/-! ### A word made again of its fields (R71) -/

section Rebuild

variable {w : Word} {op low func : Nat}

theorem encodeA_fields (h : field w 15 12 = op) : encodeA op (fieldNnn w) = w := by
  rw [field_15_12] at h
  refine BitVec.eq_of_toNat_eq ?_
  rw [toNat_encodeA _ _ (by omega), toNat_fieldNnn]; omega

theorem encodeXI_fields (h : field w 15 12 = op) : encodeXI op (fieldX w) (fieldNn w) = w := by
  rw [field_15_12] at h
  refine BitVec.eq_of_toNat_eq ?_
  rw [toNat_encodeXI _ _ _ (by omega), val_fieldX, toNat_fieldNn]; omega

theorem encodeXYN_fields (h : field w 15 12 = op) (hl : field w 3 0 = low) :
    encodeXYN op (fieldX w) (fieldY w) low = w := by
  rw [field_15_12] at h
  rw [field_3_0] at hl
  refine BitVec.eq_of_toNat_eq ?_
  rw [toNat_encodeXYN _ _ _ _ (by omega) (by omega), val_fieldX, val_fieldY]; omega

theorem encodeXF_fields (h : field w 15 12 = op) (hf : field w 7 0 = func) : encodeXF op (fieldX w) func = w := by
  rw [field_15_12] at h
  rw [field_7_0] at hf
  refine BitVec.eq_of_toNat_eq ?_
  rw [toNat_encodeXF _ _ _ (by omega) (by omega), val_fieldX]; omega

end Rebuild

theorem encode_of_decode8 {w : Word} {i : Instr} (hop : field w 15 12 = 8) (h : decode8 w = .ok i) : encode i = w := by
  unfold decode8 at h
  split at h
  case h_10 => cases h
  all_goals cases h; exact encodeXYN_fields hop ‹_›

theorem encode_of_decodeE {w : Word} {i : Instr} (hop : field w 15 12 = 0xE) (h : decodeE w = .ok i) : encode i = w := by
  unfold decodeE at h
  split_ifs at h <;> cases h <;> exact encodeXF_fields hop ‹_›

theorem encode_of_decodeF {w : Word} {i : Instr} (hop : field w 15 12 = 0xF) (h : decodeF w = .ok i) : encode i = w := by
  unfold decodeF at h
  split_ifs at h <;> cases h <;> exact encodeXF_fields hop ‹_›

/-- Settles O20: in each arm of the decoder the selecting fields are known, and with the operand fields they make up the
word. -/
theorem encodeOfDecodeIsTheWord : Obligations.EncodeOfDecodeIsTheWord := by
  unfold Obligations.EncodeOfDecodeIsTheWord
  intro w i h
  unfold decode at h
  split at h
  case h_1 => split_ifs at h with hcls hret <;> cases h <;> exact Eq.symm ‹_›
  case h_6 | h_10 => split_ifs at h with hlow; cases h; exact encodeXYN_fields ‹_› hlow
  case h_9 hop => exact encode_of_decode8 hop h
  case h_15 hop => exact encode_of_decodeE hop h
  case h_16 hop => exact encode_of_decodeF hop h
  case h_17 => cases h
  case h_14 hop =>
    cases h
    exact encodeXYN_fields hop (by rw [toNat_fieldN, field_3_0])
  case h_2 | h_3 | h_11 | h_12 => cases h; exact encodeA_fields ‹_›
  all_goals cases h; exact encodeXI_fields ‹_›

/-! ### The table (R74, R75) -/

/-- A field that a mask covers whole is the same in every word that agrees under the mask. -/
theorem field_eq_of_and {w m p : Word} (hi lo : Nat) (h : w &&& m = p) (hm : field m hi lo = 2 ^ (hi - lo + 1) - 1) :
    field w hi lo = field p hi lo := by
  have hand : field (w &&& m) hi lo = field w hi lo &&& field m hi lo := by
    simp only [field, BitVec.toNat_and, Nat.and_div_two_pow, Nat.and_mod_two_pow]
  have hlt : field w hi lo < 2 ^ (hi - lo + 1) := Nat.mod_lt _ (by positivity)
  rw [← h, hand, hm, Nat.and_two_pow_sub_one_eq_mod, Nat.mod_eq_of_lt hlt]

/-- A word that has the fixed bits of an instruction's row is decoded to some instruction. -/
theorem decode_of_matches_row {w : Word} (i : Instr) (h : w &&& i.row.mask = i.row.pattern) : ∃ j, decode w = .ok j := by
  cases i <;> simp only [Instr.row] at h
  case cls | ret =>
    obtain rfl : w = _ := BitVec.and_allOnes.symm.trans h
    exact ⟨_, rfl⟩
  all_goals rw [decode, field_eq_of_and 15 12 h rfl]
  case seReg | sneReg => exact ⟨_, if_pos (field_eq_of_and 3 0 h rfl)⟩
  case ldReg | or | and | xor | addReg | sub | shr | subn | shl =>
    change ∃ j, decode8 w = .ok j
    rw [decode8, field_eq_of_and 3 0 h rfl]
    exact ⟨_, rfl⟩
  case skp | sknp =>
    change ∃ j, decodeE w = .ok j
    rw [decodeE, field_eq_of_and 7 0 h rfl]
    exact ⟨_, rfl⟩
  case ldVxDt | ldVxKey | ldDtVx | ldStVx | addI | bcd | stm | ldm =>
    change ∃ j, decodeF w = .ok j
    rw [decodeF, field_eq_of_and 7 0 h rfl]
    exact ⟨_, rfl⟩
  all_goals exact ⟨_, rfl⟩

/-- The word of an instruction has the fixed bits of its row. -/
theorem encode_and_row (i : Instr) : encode i &&& i.row.mask = i.row.pattern := by
  cases i
  case cls | ret => rfl
  case jp | call | ldI | jpV0 => exact encodeA_and _ _
  case seImm | sneImm | ldImm | addImm | rnd => exact encodeXI_and _ _ _
  case drw => exact encodeXYN_and_op _ _ _ _
  case skp | sknp | ldVxDt | ldVxKey | ldDtVx | ldStVx | addI | bcd | stm | ldm => exact encodeXF_and _ _ _ (by decide)
  all_goals exact encodeXYN_and _ _ _ _ (by decide)

/-- No word lies in two rows that are disjoint. -/
theorem OpcodeRow.not_matches_both {r q : OpcodeRow} {w : Word} (hd : r.disjoint q = true)
    (hr : w &&& r.mask = r.pattern) (hq : w &&& q.mask = q.pattern) : False := by
  have hne : r.pattern &&& q.mask ≠ q.pattern &&& r.mask := by simpa [OpcodeRow.disjoint] using hd
  refine hne ?_
  rw [← hr, ← hq, BitVec.and_assoc, BitVec.and_comm r.mask, ← BitVec.and_assoc]

/-- Any two rows of the table are one row or disjoint. -/
theorem opcodeTable_disjoint : ∀ r ∈ opcodeTable, ∀ q ∈ opcodeTable, r = q ∨ r.disjoint q = true := by decide

/-- The decoder's one error is the illegal word itself. -/
theorem eq_illegal_of_decode {w : Word} {e : DecodeError} (h : decode w = .error e) : e = .illegal w := by
  unfold decode decode8 decodeE decodeF at h
  repeat' split at h
  all_goals cases h
  all_goals rfl

theorem decode_illegal_of_not_ok {w : Word} (h : ∀ i, decode w ≠ .ok i) : decode w = .error (.illegal w) := by
  cases hd : decode w with
  | ok i => exact absurd hd (h i)
  | error e => rw [eq_illegal_of_decode hd]

/-- Settles O21: a word that decodes is its instruction's word, which lies in that row and so in no disjoint one; a word
in any row decodes. -/
theorem decoderAgreesWithTheOpcodeTable : Obligations.DecoderAgreesWithTheOpcodeTable := by
  unfold Obligations.DecoderAgreesWithTheOpcodeTable
  refine fun w => ⟨fun i hi r hr => ?_, fun hno => ⟨?_, fun r hr hmatch => ?_⟩⟩
  · have hown : w &&& i.row.mask = i.row.pattern := encodeOfDecodeIsTheWord w i hi ▸ encode_and_row i
    refine ⟨fun hmatch => ?_, fun hri => hri ▸ hown⟩
    exact (opcodeTable_disjoint r hr i.row i.row_mem).resolve_right fun hd => OpcodeRow.not_matches_both hd hmatch hown
  · exact decode_illegal_of_not_ok hno
  · obtain ⟨i, -, rfl⟩ := List.mem_map.mp hr
    obtain ⟨j, hj⟩ := decode_of_matches_row i hmatch
    exact hno j hj

/-! ### The illegal words (R79) -/

section Illegal

/-- An arm that decodes on a test answers an error exactly when the test fails and what follows it does. -/
theorem ite_ok_eq_error_iff {p : Prop} [Decidable p] {i : Instr} {rest : Except DecodeError Instr} {e : DecodeError} :
    (if p then .ok i else rest) = .error e ↔ ¬ p ∧ rest = .error e := by
  split_ifs with hp <;> simp [hp]

variable (w : Word)

theorem decode8_illegal_iff :
    decode8 w = .error (.illegal w) ↔ w.toNat % 0x10 ∈ [0x8, 0x9, 0xA, 0xB, 0xC, 0xD, 0xF] := by
  have hlt : w.toNat % 16 < 16 := Nat.mod_lt _ (by decide)
  rw [decode8, field_3_0]
  generalize w.toNat % 16 = low at hlt ⊢
  interval_cases low <;> simp

theorem decodeE_illegal_iff : decodeE w = .error (.illegal w) ↔ w.toNat % 0x100 ∉ [0x9E, 0xA1] := by
  rw [decodeE, field_7_0]
  split_ifs <;> simp [*]

theorem decodeF_illegal_iff :
    decodeF w = .error (.illegal w) ↔ w.toNat % 0x100 ∉ [0x07, 0x0A, 0x15, 0x18, 0x1E, 0x33, 0x55, 0x65] := by
  rw [decodeF, field_7_0]
  split_ifs <;> simp [*]

end Illegal

/-- Settles O22: opcode nibble by opcode nibble, with the words of the nibbles 8, E and F counted above. -/
theorem illegalWordsAreExactlyTheListed : Obligations.IllegalWordsAreExactlyTheListed := by
  unfold Obligations.IllegalWordsAreExactlyTheListed
  intro w
  have hop : w.toNat / 0x1000 < 16 := by have := w.isLt; omega
  have hcls : w = 0x00E0#16 ↔ w.toNat = 0xE0 := BitVec.toNat_inj.symm
  have hret : w = 0x00EE#16 ↔ w.toNat = 0xEE := BitVec.toNat_inj.symm
  simp only [decode, field_15_12, field_3_0, hcls, hret]
  generalize w.toNat / 0x1000 = op at hop ⊢
  interval_cases op
  all_goals simp [ite_ok_eq_error_iff, decode8_illegal_iff, decodeE_illegal_iff, decodeF_illegal_iff]

/-- Settles O18: the decoder computes on each of the nine words. -/
theorem wordsOfTheTableDecodeToTheirInstruction : Obligations.WordsOfTheTableDecodeToTheirInstruction := by
  unfold Obligations.WordsOfTheTableDecodeToTheirInstruction
  exact ⟨rfl, rfl, rfl, rfl, rfl, rfl, rfl, rfl, rfl⟩

end Sys2Proof
end

section
/-!
PROOFS. Frames of the writes the sections above leave out: the stack slots, ST, KW, BEEP, the keys, a run of bytes, a
run of registers, and the host's ports; and how frames are put together.
-/

namespace Sys2Proof.Machine

variable {s t u : State} {P Q : Part → Prop}

/-! ### Putting frames together -/

/-- One write after another touches what either of them touches. -/
theorem OnlyChanges.andThen (h : OnlyChanges s t P) (g : OnlyChanges t u Q) : OnlyChanges s u (fun p => P p ∨ Q p) :=
  (h.mono fun _ => Or.inl).trans (g.mono fun _ => Or.inr)

/-- Moving on to the next word adds pc to a frame. -/
theorem OnlyChanges.advance (h : OnlyChanges s t P) : OnlyChanges s t.advance (fun p => P p ∨ p = .pc) :=
  h.andThen (onlyChanges_setPc t _)

theorem OnlyChanges.same (h : OnlyChanges s t P) {p : Part} (hp : ¬ P p) : p.same s t := h p hp

/-! ### Single writes -/

section Writes

variable (s)

theorem onlyChanges_setSlot (j : Nat) (w : Word) : OnlyChanges s (s.setSlot j w) (fun p => p = .slot j) := fun p hp => by
  cases p
  case slot k =>
    have hk : j ≠ k := fun h => hp (congrArg Part.slot h.symm)
    exact List.getElem?_set_ne hk
  all_goals rfl

theorem onlyChanges_setSt (b : Byte) : OnlyChanges s (s.setSt b) (fun p => p = .sound) := fun p hp => by
  cases p
  case sound => exact absurd rfl hp
  all_goals rfl

theorem onlyChanges_setBeep (l : Bool) : OnlyChanges s (s.setBeep l) (fun p => p = .beep) := fun p hp => by
  cases p
  case beep => exact absurd rfl hp
  all_goals rfl

theorem onlyChanges_setKw (k : Option Reg) : OnlyChanges s (s.setKw k) (fun p => p = .keyWait) := fun p hp => by
  cases p
  case keyWait => exact absurd rfl hp
  all_goals rfl

theorem onlyChanges_putKey (k : Reg) (l : Bool) : OnlyChanges s (s.putKey k l) (fun p => p = .key k) := fun p hp => by
  cases p
  case key q =>
    have hq : q ≠ k := fun h => hp (congrArg Part.key h)
    rw [Part.same, State.key_putKey, if_neg hq]
  all_goals rfl

/-- Storing a run of bytes leaves every other byte and everything else alone (R57). -/
theorem onlyChanges_writeList (a : Nat) (bs : List Byte) :
    OnlyChanges s (s.setMem (s.mem.writeList a bs)) (fun p => ∃ j, j < bs.length ∧ p = .byte (a + j)) := fun p hp => by
  cases p
  case byte q => exact Memory.read_writeList_outside _ _ _ _ fun j hj hq => hp ⟨j, hj, congrArg Part.byte hq⟩
  all_goals rfl

/-- Loading a run of registers leaves every other register and everything else alone (R154). -/
theorem onlyChanges_loadRegs (bs : List Byte) (h : bs.length ≤ 16) :
    OnlyChanges s (s.loadRegs 0 bs) (fun p => ∃ r : Reg, r.val < bs.length ∧ p = .reg r) := fun p hp => by
  obtain ⟨⟨v, hv⟩, hreg⟩ := s.loadRegs_spec 0 bs (by omega)
  cases p
  case reg r =>
    have hr : ¬ r.val < bs.length := fun hlt => hp ⟨r, hlt, rfl⟩
    rw [Part.same, hreg, if_pos (Nat.zero_le _), Nat.sub_zero, List.getElem?_eq_none (by omega), Option.getD_none]
  all_goals rw [hv]; rfl

/-! ### The host's ports -/

theorem onlyChanges_takeEvent : OnlyChanges s s.takeEvent (fun p => p = .events) := fun p hp => by
  cases p
  case events => exact absurd rfl hp
  all_goals rfl

theorem onlyChanges_presentRnd (b : Option Byte) : OnlyChanges s (s.presentRnd b) (fun p => p = .rndIn) := fun p hp => by
  cases p
  case rndIn => exact absurd rfl hp
  all_goals rfl

theorem onlyChanges_countRnd : OnlyChanges s s.countRnd (fun p => p = .rndCount) := fun p hp => by
  cases p
  case rndCount => exact absurd rfl hp
  all_goals rfl

theorem onlyChanges_reportLoad (r : LoadResult) : OnlyChanges s (s.reportLoad r) (fun p => p = .loadResult) :=
  fun p hp => by
    cases p
    case loadResult => exact absurd rfl hp
    all_goals rfl

end Writes

end Sys2Proof.Machine
end

section
/-!
PROOFS. Calls and indexed jumps (spec/41_control_flow.md): what CALL and JP_V0 answer, and the statements this settles.
-/

namespace Sys2Proof.Machine

variable (s : State) (nnn : Addr12)

/-! ### CALL (R102) -/

theorem exec_call_of_full (h : s.config.stackDepth ≤ s.sp) :
    exec (.call nnn) s = .next (s.raise .stackOverflow (encode (.call nnn)) 0) :=
  if_pos h

theorem exec_call_of_room (h : s.sp < s.config.stackDepth) :
    exec (.call nnn) s = .next ((s.push (s.pc + 2)).setPc (zextAddr nnn)) :=
  if_neg (Nat.not_le.mpr h)

theorem onlyChanges_push_setPc (ra target : Word) :
    OnlyChanges s ((s.push ra).setPc target) (fun p => p = .slot s.sp ∨ p = .sp ∨ p = .pc) :=
  (onlyChanges_setSlot s s.sp ra).andThen ((onlyChanges_setSp _ _).andThen (onlyChanges_setPc _ _))

/-- Settles O25: with room CALL is a push followed by a write of pc, on a full stack it raises the fault. -/
theorem callPushesTheReturnAddress : Obligations.CallPushesTheReturnAddress := by
  unfold Obligations.CallPushesTheReturnAddress
  refine fun nnn s => ⟨toNat_encodeA 2 nnn (by decide), fun hlen hsp => ?_, fun hsp => ?_⟩
  · have hslot : (s.stack.set s.sp (s.pc + 2))[s.sp]? = some (s.pc + 2) := List.getElem?_set_self (by omega)
    exact ⟨_, exec_call_of_room s nnn hsp, hslot, rfl, toNat_zextAddr nnn, onlyChanges_push_setPc s _ _⟩
  · exact ⟨_, exec_call_of_full s nnn hsp.ge, raisedOnly_raise ..⟩

/-! ### JP_V0 (R103) -/

theorem exec_jpV0 : exec (.jpV0 nnn) s = .next (s.setPc (zext16 (s.reg 0) + zextAddr nnn)) := rfl

/-- A byte and a 12-bit immediate add up without overflow. -/
theorem toNat_zext16_add_zextAddr (b : Byte) : (zext16 b + zextAddr nnn).toNat = b.toNat + nnn.toNat := by
  have := b.isLt
  have := nnn.isLt
  rw [BitVec.toNat_add, toNat_zext16, toNat_zextAddr, Nat.mod_eq_of_lt (by omega)]

/-- Settles O26: JP_V0 is a write of pc, by a sum that fits 16 bits. -/
theorem jpV0AddsV0ToTheTarget : Obligations.JpV0AddsV0ToTheTarget := by
  unfold Obligations.JpV0AddsV0ToTheTarget
  refine fun nnn s => ⟨toNat_encodeA 0xB nnn (by decide), _, exec_jpV0 s nnn, ?_, onlyChanges_setPc s _⟩
  exact toNat_zext16_add_zextAddr nnn (s.reg 0)

end Sys2Proof.Machine
end

section
/-!
PROOFS. Arithmetic with a flag, shifts and the random byte (spec/42_load_alu.md, R126 to R132): the flags as numbers,
the frame of a result and a flag written in either order, and the statements these settle.
-/

namespace Sys2Proof.Machine

/-! ### The flags as numbers (R21) -/

theorem carryFlag_eq (sum : Nat) : carryFlag sum = if sum > 255 then 1 else 0 := by
  rw [carryFlag, flagByte_eq]; exact if_congr decide_eq_true_iff rfl rfl

theorem noBorrowFlag_eq (a b : Byte) : noBorrowFlag a b = if a.toNat ≥ b.toNat then 1 else 0 := by
  rw [noBorrowFlag, flagByte_eq]; exact if_congr decide_eq_true_iff rfl rfl

theorem toNat_noBorrowFlag (a b : Byte) : (noBorrowFlag a b).toNat = if a.toNat ≥ b.toNat then 1 else 0 := by
  rw [noBorrowFlag_eq]; split_ifs <;> rfl

theorem toNat_shiftRightFlag (a : Byte) : (shiftRightFlag a).toNat = a.toNat % 2 := by
  rw [shiftRightFlag, toNat_byteOf]; omega

theorem toNat_shiftLeftFlag (a : Byte) : (shiftLeftFlag a).toNat = a.toNat / 128 := by
  have := a.isLt
  rw [shiftLeftFlag, toNat_byteOf]; omega

/-! ### A result and a flag (R132) -/

section ResultAndFlag

variable (s : State) (x : Reg) (b flag : Byte)

theorem reg_setReg_same : (s.setReg x b).reg x = b := by rw [State.reg_setReg, if_pos rfl]

theorem reg_setReg_of_ne {q x : Reg} (h : q ≠ x) : (s.setReg x b).reg q = s.reg q := by rw [State.reg_setReg, if_neg h]

theorem reg_result_flag {x : Reg} (h : x ≠ VF) : ((s.setReg x b).setReg VF flag).advance.reg x = b := by
  rw [State.advance_eq, State.reg_setPc, reg_setReg_of_ne _ _ h, reg_setReg_same]

theorem reg_flag_result {x : Reg} (h : x ≠ VF) : ((s.setReg VF flag).setReg x b).advance.reg VF = flag := by
  rw [State.advance_eq, State.reg_setPc, reg_setReg_of_ne _ _ h.symm, reg_setReg_same]

/-- The result first, then the flag. -/
theorem onlyChanges_result_flag :
    OnlyChanges s ((s.setReg x b).setReg VF flag).advance (fun p => p = .reg x ∨ p = .reg VF ∨ p = .pc) :=
  (onlyChanges_setReg s x b).andThen (onlyChanges_setReg_advance _ VF flag)

/-- The flag first, then the result. -/
theorem onlyChanges_flag_result :
    OnlyChanges s ((s.setReg VF flag).setReg x b).advance (fun p => p = .reg x ∨ p = .reg VF ∨ p = .pc) :=
  ((onlyChanges_setReg s VF flag).andThen (onlyChanges_setReg_advance _ x b)).mono fun _ => or_left_comm.mp

end ResultAndFlag

section Answers

variable (s : State) (x y : Reg)

theorem exec_addReg : exec (.addReg x y) s =
    .next ((s.setReg x (byteOf ((s.reg x).toNat + (s.reg y).toNat))).setReg VF
      (carryFlag ((s.reg x).toNat + (s.reg y).toNat))).advance := rfl

/-- SUB reads both registers as the flag `f` left them. -/
theorem exec_sub {f : Byte} (hf : f = noBorrowFlag (s.reg x) (s.reg y)) : exec (.sub x y) s =
    .next ((s.setReg VF f).setReg x
      (byteOf (((s.setReg VF f).reg x).toNat + 256 - ((s.setReg VF f).reg y).toNat))).advance := by
  rw [hf]; rfl

theorem exec_shr {f : Byte} (hf : f = shiftRightFlag (s.reg x)) : exec (.shr x y) s =
    .next ((s.setReg VF f).setReg x (byteOf (((s.setReg VF f).reg x).toNat / 2))).advance := by
  rw [hf]; rfl

theorem exec_shl {f : Byte} (hf : f = shiftLeftFlag (s.reg x)) : exec (.shl x y) s =
    .next ((s.setReg VF f).setReg x (byteOf (((s.setReg VF f).reg x).toNat * 2))).advance := by
  rw [hf]; rfl

/-- SUBN reads both registers as the result `b` left them. -/
theorem exec_subn {b : Byte} (hb : b = byteOf ((s.reg y).toNat + 256 - (s.reg x).toNat)) : exec (.subn x y) s =
    .next ((s.setReg x b).setReg VF (subnFlag s.config ((s.setReg x b).reg y) ((s.setReg x b).reg x))).advance := by
  rw [hb]; rfl

theorem exec_rnd (nn : Byte) : exec (.rnd x nn) s = .next (s.setReg x (s.rndByte &&& nn)).countRnd.advance := rfl

end Answers

/-! ### Addition and subtraction (R126, R127) -/

/-- Settles O33: the sum to V[x], then its carry to VF, which is what stays when x = F. -/
theorem addRegAddsAndReportsCarry : Obligations.AddRegAddsAndReportsCarry := by
  unfold Obligations.AddRegAddsAndReportsCarry
  intro x y s
  refine ⟨toNat_encodeXYN_8 x y 4 (by decide), _, exec_addReg s x y, fun hx => ?_, ?_, rfl,
    onlyChanges_result_flag s x _ _⟩
  · rw [reg_result_flag s _ _ hx, toNat_byteOf]
  · rw [reg_setReg_advance, carryFlag_eq]

/-- Settles O34: the difference is that of the registers as the flag left them, so where x or y is F the flag stands for
it. -/
theorem subSubtractsAndReportsNoBorrow : Obligations.SubSubtractsAndReportsNoBorrow := by
  unfold Obligations.SubSubtractsAndReportsNoBorrow
  intro x y s
  obtain ⟨f, hf⟩ : ∃ f, f = noBorrowFlag (s.reg x) (s.reg y) := ⟨_, rfl⟩
  refine ⟨toNat_encodeXYN_8 x y 5 (by decide), _, exec_sub s x y hf, fun hx hy => ?_, fun hx hy => ?_, fun hx => ?_,
    fun hx hy => ?_, fun hx hy => ?_, rfl, onlyChanges_flag_result s x _ f⟩
  · rw [reg_setReg_advance, toNat_byteOf, reg_setReg_of_ne s f hx, reg_setReg_of_ne s f hy]
  · subst hy
    rw [reg_setReg_advance, toNat_byteOf, reg_setReg_of_ne s f hx, reg_setReg_same, hf, toNat_noBorrowFlag]
  · rw [reg_flag_result s _ f hx, hf, noBorrowFlag_eq]
  · subst hx
    rw [reg_setReg_advance, toNat_byteOf, reg_setReg_of_ne s f hy, reg_setReg_same, hf, toNat_noBorrowFlag]
  · subst hx hy
    rw [reg_setReg_advance, Nat.add_sub_cancel_left]
    rfl

/-! ### Shifts (R128, R130) -/

/-- Settles O35: with x = F the bit shifted out, 0 or 1, is what is halved. -/
theorem shrHalvesAndReportsTheLowBit : Obligations.ShrHalvesAndReportsTheLowBit := by
  unfold Obligations.ShrHalvesAndReportsTheLowBit
  intro x y s
  obtain ⟨f, hf⟩ : ∃ f, f = shiftRightFlag (s.reg x) := ⟨_, rfl⟩
  have hflag : f.toNat = (s.reg x).toNat % 2 := by rw [hf, toNat_shiftRightFlag]
  have hlt := (s.reg x).isLt
  refine ⟨toNat_encodeXYN_8 x y 6 (by decide), _, exec_shr s x y hf, fun hx => ⟨?_, ?_⟩, fun hx => ?_, rfl,
    onlyChanges_flag_result s x _ f⟩
  · rw [reg_setReg_advance, toNat_byteOf, reg_setReg_of_ne s f hx]; omega
  · rw [reg_flag_result s _ f hx, hflag]
  · subst hx
    rw [reg_setReg_advance, reg_setReg_same, hflag, show (s.reg VF).toNat % 2 / 2 = 0 by omega]
    rfl

/-- Settles O36: with x = F the bit shifted out, 0 or 1, is what is doubled. -/
theorem shlDoublesAndReportsTheHighBit : Obligations.ShlDoublesAndReportsTheHighBit := by
  unfold Obligations.ShlDoublesAndReportsTheHighBit
  intro x y s
  obtain ⟨f, hf⟩ : ∃ f, f = shiftLeftFlag (s.reg x) := ⟨_, rfl⟩
  have hflag : f.toNat = (s.reg x).toNat / 128 := by rw [hf, toNat_shiftLeftFlag]
  have hlt := (s.reg x).isLt
  refine ⟨toNat_encodeXYN_8 x y 0xE (by decide), _, exec_shl s x y hf, fun hx => ⟨?_, ?_⟩, fun hx => ?_, rfl,
    onlyChanges_flag_result s x _ f⟩
  · rw [reg_setReg_advance, toNat_byteOf, reg_setReg_of_ne s f hx]
  · rw [reg_flag_result s _ f hx, hflag]
  · subst hx
    rw [reg_setReg_advance, reg_setReg_same, hflag]
    split_ifs with hbit
    · rw [show (s.reg VF).toNat / 128 = 1 by omega]; rfl
    · rw [show (s.reg VF).toNat / 128 = 0 by omega]; rfl

/-! ### Reverse subtraction (R129) -/

theorem subnFlag_self (c : Config) (b : Byte) : subnFlag c b b = if c.subnVfOnEqual then 1 else 0 := by
  rw [subnFlag, if_neg (lt_irrefl _), if_pos rfl, flagByte_eq]

theorem subnFlag_eq (c : Config) (a b : Byte) : subnFlag c a b =
    if a.toNat > b.toNat then 1 else if a.toNat = b.toNat then (if c.subnVfOnEqual then 1 else 0) else 0 := by
  rw [subnFlag, flagByte_eq]
  exact if_congr Iff.rfl rfl (if_congr BitVec.toNat_inj.symm rfl rfl)

/-- Settles O37: the flag compares V[y], itself the result when y = x, with the result. -/
theorem subnComparesWithTheUpdatedRegister : Obligations.SubnComparesWithTheUpdatedRegister := by
  unfold Obligations.SubnComparesWithTheUpdatedRegister
  intro x y s
  obtain ⟨b, hb⟩ : ∃ b, b = byteOf ((s.reg y).toNat + 256 - (s.reg x).toNat) := ⟨_, rfl⟩
  have hres : b.toNat = ((s.reg y).toNat + 256 - (s.reg x).toNat) % 256 := by rw [hb, toNat_byteOf]
  refine ⟨toNat_encodeXYN_8 x y 7 (by decide), ?_⟩
  simp only [← hres]
  refine ⟨_, exec_subn s x y hb, fun hx => ?_, ?_, rfl, onlyChanges_result_flag s x b _⟩
  · rw [reg_result_flag s b _ hx]
  · rw [reg_setReg_advance, reg_setReg_same]
    by_cases hxy : x = y
    · rw [if_pos hxy, ← hxy, reg_setReg_same, subnFlag_self]
    · rw [if_neg hxy, reg_setReg_of_ne s b (Ne.symm hxy), subnFlag_eq]

/-! ### The random byte (R131) -/

/-- Settles O38: RND is a write of V[x] by the byte on the rnd input, masked, that takes one random byte and moves on.
-/
theorem rndMasksTheRandomByte : Obligations.RndMasksTheRandomByte := by
  unfold Obligations.RndMasksTheRandomByte
  intro x nn s
  have hval : (s.setReg x (s.rndByte &&& nn)).countRnd.advance.reg x = s.rndByte &&& nn := reg_setReg_same s x _
  refine ⟨toNat_encodeXI 0xC x nn (by decide), _, exec_rnd s x nn, fun b hb => ?_, fun hnone => ?_, rfl, ?_⟩
  · rw [hval, State.rndByte, hb, Option.getD_some]
  · rw [hval, State.rndByte, hnone, Option.getD_none]
  · exact ((onlyChanges_setReg s x _).andThen (onlyChanges_countRnd _).advance).mono fun _ => Or.imp_right Or.symm

end Sys2Proof.Machine
end

section
/-!
PROOFS. Addition to the index and memory transfer (spec/43_index_memory.md): what ADD_I, BCD, STM and LDM answer, inside
memory and past its end, and the statements this settles.
-/

namespace Sys2Proof.Machine

variable (s : State) (x : Reg)

/-! ### ADD_I (R151) -/

theorem exec_addI : exec (.addI x) s =
    .next ((s.setIndex (wordOf (s.iReg.toNat + (s.reg x).toNat))).setReg VF
      (indexFlag s.config (s.iReg.toNat + (s.reg x).toNat) (s.reg VF))).advance := rfl

/-- Settles O40: a write of I by the sum modulo 65536, then one of VF by the flag of the sum itself. -/
theorem addIAddsAndReportsPastTheEnd : Obligations.AddIAddsAndReportsPastTheEnd := by
  unfold Obligations.AddIAddsAndReportsPastTheEnd
  intro x s
  refine ⟨toNat_encodeXF_F x 0x1E (by decide), _, exec_addI s x, ?_, fun hpast => ?_, fun hin => ?_, rfl, ?_⟩
  · exact toNat_wordOf _
  · rw [reg_setReg_advance, indexFlag, if_pos hpast]
  · rw [reg_setReg_advance, indexFlag, if_neg (by omega)]
  · exact (onlyChanges_setIndex s _).andThen (onlyChanges_setReg_advance _ VF _)

/-! ### The bytes a transfer stores and the range it checks (R55, R155) -/

/-- Bytes stored at I read back one by one at their effective addresses. -/
theorem read_writeList_effAddr (bs : List Byte) {j : Nat} (h : j < bs.length) :
    (s.mem.writeList (s.effAddr 0) bs).read (s.effAddr j) = bs[j] :=
  Memory.read_writeList_of_lt _ _ _ _ h

/-- Storing bytes at I and moving on writes the bytes at their effective addresses, and pc. -/
theorem onlyChanges_writeList_advance (bs : List Byte) :
    OnlyChanges s (s.setMem (s.mem.writeList (s.effAddr 0) bs)).advance
      (fun p => (∃ j, j < bs.length ∧ p = .byte (s.effAddr j)) ∨ p = .pc) :=
  (onlyChanges_writeList s (s.effAddr 0) bs).advance

/-- An instruction whose `len` bytes at I would leave memory raises OutOfBounds and does nothing else. -/
theorem exec_out_of_bounds {i : Instr} {len : Nat} {t : State} (hi : exec i s = s.checkRange i len t) (hl : 0 < len)
    (h : s.iReg.toNat + len > 0x1000) :
    ∃ u, exec i s = .next u ∧ RaisedOnly s u .outOfBounds (encode i) (BitVec.ofNat 16 (max s.iReg.toNat 0x1000)) :=
  ⟨_, hi.trans (s.checkRange_out t h hl), raisedOnly_raise ..⟩

/-! ### BCD (R152) -/

theorem exec_bcd : exec (.bcd x) s =
    s.checkRange (.bcd x) 3 (s.setMem (s.mem.writeList (s.effAddr 0) (decimalDigits (s.reg x)))).advance := rfl

/-- Settles O41: inside memory the three digits are stored at I, past its end nothing is. -/
theorem bcdStoresThreeDigits : Obligations.BcdStoresThreeDigits := by
  unfold Obligations.BcdStoresThreeDigits
  refine fun x s => ⟨toNat_encodeXF_F x 0x33 (by decide), fun hin => ?_, fun hout => ?_⟩
  · have hread := fun j (hj : j < 3) => read_writeList_effAddr s (decimalDigits (s.reg x)) (j := j) hj
    have hlt := (s.reg x).isLt
    refine ⟨_, (exec_bcd s x).trans (s.checkRange_in _ (by omega)), ?_, ?_, ?_, rfl,
      onlyChanges_writeList_advance s (decimalDigits (s.reg x))⟩
    · exact (congrArg BitVec.toNat (hread 0 (by decide))).trans ((toNat_byteOf _).trans (by omega))
    · exact (congrArg BitVec.toNat (hread 1 (by decide))).trans ((toNat_byteOf _).trans (by omega))
    · exact (congrArg BitVec.toNat (hread 2 (by decide))).trans ((toNat_byteOf _).trans (by omega))
  · exact exec_out_of_bounds s (exec_bcd s x) (by decide) (by omega)

/-! ### STM (R153) -/

theorem exec_stm : exec (.stm x) s =
    s.checkRange (.stm x) (x.val + 1) (s.setMem (s.mem.writeList (s.effAddr 0) (s.regsUpTo x))).advance := rfl

/-- Settles O42: inside memory the registers up to V[x] are stored at I, past its end nothing is. -/
theorem stmStoresTheRegisters : Obligations.StmStoresTheRegisters := by
  unfold Obligations.StmStoresTheRegisters
  refine fun x s => ⟨toNat_encodeXF_F x 0x55 (by decide), fun hin => ?_, fun hout => ?_⟩
  · refine ⟨_, (exec_stm s x).trans (s.checkRange_in _ (by omega)), fun j hj => ?_, rfl, ?_⟩
    · have hlen : j.val < (s.regsUpTo x).length := by rw [State.length_regsUpTo]; exact Nat.lt_succ_of_le hj
      exact (read_writeList_effAddr s _ hlen).trans (s.getElem_regsUpTo x j hlen)
    · refine (onlyChanges_writeList_advance s (s.regsUpTo x)).mono fun p => Or.imp_left ?_
      rintro ⟨j, hj, rfl⟩
      rw [State.length_regsUpTo] at hj
      exact ⟨⟨j, by omega⟩, Nat.le_of_lt_succ hj, rfl⟩
  · exact exec_out_of_bounds s (exec_stm s x) (Nat.succ_pos _) (by omega)

/-! ### LDM (R154) -/

theorem exec_ldm : exec (.ldm x) s =
    s.checkRange (.ldm x) (x.val + 1) (s.loadRegs 0 (s.mem.readList (s.effAddr 0) (x.val + 1))).advance := rfl

/-- The registers up to V[x] take the bytes at their effective addresses. -/
theorem reg_loadRegs_readList {j : Reg} (h : j ≤ x) :
    (s.loadRegs 0 (s.mem.readList (s.effAddr 0) (x.val + 1))).reg j = s.mem.read (s.effAddr j.val) := by
  have hlen : j.val < (s.mem.readList (s.effAddr 0) (x.val + 1)).length := by
    rw [Memory.length_readList]; exact Nat.lt_succ_of_le h
  rw [(s.loadRegs_spec 0 _ (by rw [Memory.length_readList]; omega)).2, if_pos (Nat.zero_le _), Nat.sub_zero,
    List.getElem?_eq_getElem hlen, Option.getD_some, Memory.getElem_readList]
  rfl

theorem onlyChanges_loadRegs_readList :
    OnlyChanges s (s.loadRegs 0 (s.mem.readList (s.effAddr 0) (x.val + 1))) (fun p => ∃ j : Reg, j ≤ x ∧ p = .reg j) := by
  have hlen : (s.mem.readList (s.effAddr 0) (x.val + 1)).length = x.val + 1 := Memory.length_readList ..
  refine (onlyChanges_loadRegs s _ (by omega)).mono ?_
  rintro p ⟨j, hj, rfl⟩
  exact ⟨j, Fin.le_def.mpr (by omega), rfl⟩

/-- Settles O43: inside memory the registers up to V[x] are loaded from I, past its end none is. -/
theorem ldmLoadsTheRegisters : Obligations.LdmLoadsTheRegisters := by
  unfold Obligations.LdmLoadsTheRegisters
  refine fun x s => ⟨toNat_encodeXF_F x 0x65 (by decide), fun hin => ?_, fun hout => ?_⟩
  · have hframe := onlyChanges_loadRegs_readList s x
    have hpc : (s.loadRegs 0 (s.mem.readList (s.effAddr 0) (x.val + 1))).pc = s.pc :=
      hframe.same (p := .pc) (by rintro ⟨j, -, h⟩; cases h)
    exact ⟨_, (exec_ldm s x).trans (s.checkRange_in _ (by omega)), fun j hj => reg_loadRegs_readList s x hj,
      congrArg (· + 2) hpc, hframe.advance⟩
  · exact exec_out_of_bounds s (exec_ldm s x) (Nat.succ_pos _) (by omega)

/-! ### What follows from the three -/

/-- The registers an STM inside memory stored, and its frame. -/
theorem read_of_exec_stm {s t : State} {x : Reg} (hin : s.iReg.toNat + x.val ≤ 0xFFF) (h : exec (.stm x) s = .next t) :
    (∀ j : Reg, j ≤ x → t.mem.read (s.effAddr j.val) = s.reg j) ∧ t.pc = s.pc + 2 ∧
      OnlyChanges s t (fun p => (∃ j : Reg, j ≤ x ∧ p = .byte (s.effAddr j.val)) ∨ p = .pc) := by
  obtain ⟨-, hstm, -⟩ := stmStoresTheRegisters x s
  obtain ⟨t', ht', hspec⟩ := hstm hin
  obtain rfl : t = t' := Host.Outcome.next.inj (h.symm.trans ht')
  exact hspec

/-- The registers an LDM inside memory loaded. -/
theorem reg_of_exec_ldm {s t : State} {x : Reg} (hin : s.iReg.toNat + x.val ≤ 0xFFF) (h : exec (.ldm x) s = .next t) :
    ∀ j : Reg, j ≤ x → t.reg j = s.mem.read (s.effAddr j.val) := by
  obtain ⟨-, hldm, -⟩ := ldmLoadsTheRegisters x s
  obtain ⟨t', ht', hloaded, -⟩ := hldm hin
  obtain rfl : t = t' := Host.Outcome.next.inj (h.symm.trans ht')
  exact hloaded

/-- Settles O44: between the two transfers I and the stored bytes stay, so the load reads what the store wrote. -/
theorem storeThenLoadGivesTheRegistersBack : Obligations.StoreThenLoadGivesTheRegistersBack := by
  unfold Obligations.StoreThenLoadGivesTheRegistersBack
  intro x j s t u v hin hst hbetween hld hj
  obtain ⟨hstored, -, hframe⟩ := read_of_exec_stm hin hst
  have hindex : u.iReg = s.iReg :=
    (hbetween.same (p := .index) (by simp)).trans (hframe.same (p := .index) (by simp))
  have haddr : u.effAddr j.val = s.effAddr j.val := congrArg (·.toNat + j.val) hindex
  have hmem : u.mem.read (s.effAddr j.val) = t.mem.read (s.effAddr j.val) := hbetween.same (p := .byte _) (by simp)
  calc v.reg j = u.mem.read (u.effAddr j.val) := reg_of_exec_ldm (by rwa [hindex]) hld j hj
    _ = t.mem.read (s.effAddr j.val) := by rw [haddr, hmem]
    _ = s.reg j := hstored j hj

/-- Settles O45: the store moves pc to I, where its first two bytes are V[0] and V[1]. -/
theorem storedBytesAreFetchedAsWritten : Obligations.StoredBytesAreFetchedAsWritten := by
  unfold Obligations.StoredBytesAreFetchedAsWritten
  intro x s t hx hin hnext hst
  obtain ⟨hstored, hpc, -⟩ := read_of_exec_stm hin hst
  have hhigh : t.mem.read s.iReg.toNat = s.reg 0 := hstored 0 (Fin.zero_le x)
  have hlow : t.mem.read (s.iReg.toNat + 1) = s.reg 1 := hstored 1 hx
  rw [State.fetchWord, hpc, hnext, hhigh, hlow, toNat_wordOfBytes]

end Sys2Proof.Machine
end

section
/-!
PROOFS. Sprites (spec/44_display.md): what DRW answers, its frame, and the statements on one draw and on two.
-/

namespace Sys2Proof.Machine

/-! ### DRW (R171) -/

section Draw

variable (s : State) (x y : Reg) (n : Nibble)

/-- The state a draw inside memory leaves: the framebuffer with the sprite drawn, the collision in VF, pc moved on. -/
def State.afterDraw : State :=
  ((s.setFb (s.drawn x y n.toNat).fb).setReg VF (collisionFlag (s.drawn x y n.toNat).hit)).advance

theorem exec_drw : exec (.drw x y n) s = s.checkRange (.drw x y n) n.toNat (s.afterDraw x y n) := rfl

theorem exec_drw_in (h : n = 0 ∨ s.iReg.toNat + n.toNat - 1 ≤ 0xFFF) : exec (.drw x y n) s = .next (s.afterDraw x y n) := by
  have hin : ¬ s.outOfRange n.toNat = true := by
    rw [State.outOfRange_iff]
    rcases h with rfl | h
    · exact fun h0 => absurd h0.1 (by decide)
    · omega
  rw [exec_drw, State.checkRange, if_neg hin]

theorem onlyChanges_afterDraw :
    OnlyChanges s (s.afterDraw x y n) (fun p => (∃ row col, p = .pixel row col) ∨ p = .reg VF ∨ p = .pc) :=
  (onlyChanges_setFb s _).andThen (onlyChanges_setReg_advance _ VF _)

/-- A draw is the XOR with the sprite's wrapped image (R173). -/
theorem pixel_afterDraw (row : Fin 32) (col : Fin 64) : FrameBuffer.pixel (s.afterDraw x y n).fb row col =
    (FrameBuffer.pixel s.fb row col ^^ s.spriteBit (s.reg x).toNat (s.reg y).toNat n.toNat row col) := by
  have hlen : (s.mem.readList (s.effAddr 0) n.toNat).length ≤ 32 := by rw [Memory.length_readList]; omega
  rw [← spriteCovers_readList]
  exact (Canvas.plotRows_spec _ _ _ _ hlen).1 row col

theorem reg_VF_afterDraw : (s.afterDraw x y n).reg VF = flagByte (s.drawn x y n.toNat).hit := reg_setReg_advance _ VF _

theorem flagByte_eq_one_iff (b : Bool) : flagByte b = 1 ↔ b = true := by cases b <;> decide

theorem flagByte_zero_or_one (b : Bool) : flagByte b = 0 ∨ flagByte b = 1 := by cases b <;> decide

/-- VF is 1 exactly when a set pixel met a set bit of the sprite (R171). -/
theorem reg_VF_afterDraw_eq_one_iff : (s.afterDraw x y n).reg VF = 1 ↔
    ∃ row col, FrameBuffer.pixel s.fb row col = true ∧
      s.spriteBit (s.reg x).toNat (s.reg y).toNat n.toNat row col = true := by
  have hlen : (s.mem.readList (s.effAddr 0) n.toNat).length ≤ 32 := by rw [Memory.length_readList]; omega
  have hhit := (Canvas.plotRows_spec { fb := s.fb, hit := false } (s.reg x).toNat (s.reg y).toNat _ hlen).2
  simp only [spriteCovers_readList, Bool.false_eq_true, false_or] at hhit
  rw [reg_VF_afterDraw, flagByte_eq_one_iff]
  exact hhit

end Draw

/-- Settles O47: the scan draws the wrapped image and finds its collisions; a range past the end raises the fault before
it. -/
theorem drwXorsTheWrappedSprite : Obligations.DrwXorsTheWrappedSprite := by
  unfold Obligations.DrwXorsTheWrappedSprite
  refine fun x y n s => ⟨toNat_encodeXYN 0xD x y n.toNat (by decide) n.isLt, fun hin => ?_, fun hn hout => ?_⟩
  · refine ⟨_, exec_drw_in s x y n hin, pixel_afterDraw s x y n, reg_VF_afterDraw_eq_one_iff s x y n, ?_, rfl,
      onlyChanges_afterDraw s x y n⟩
    rw [reg_VF_afterDraw]
    exact flagByte_zero_or_one _
  · have hpos : 0 < n.toNat := Nat.pos_of_ne_zero fun h0 => hn (BitVec.eq_of_toNat_eq h0)
    exact exec_out_of_bounds s (exec_drw s x y n) hpos (by omega)

/-- Settles O48: a draw leaves I and memory alone, so the second has the same image, and XOR with it undoes the first.
-/
theorem drawingTwiceRestoresTheScreen : Obligations.DrawingTwiceRestoresTheScreen := by
  unfold Obligations.DrawingTwiceRestoresTheScreen
  intro x y n s t u hin hfirst hx hy hsecond
  obtain rfl : s.afterDraw x y n = t := Host.Outcome.next.inj ((exec_drw_in s x y n hin).symm.trans hfirst)
  obtain rfl : (s.afterDraw x y n).afterDraw x y n = u :=
    Host.Outcome.next.inj ((exec_drw_in (s.afterDraw x y n) x y n hin).symm.trans hsecond)
  have himage : (s.afterDraw x y n).spriteBit = s.spriteBit := rfl
  constructor
  · intro row col
    rw [pixel_afterDraw, pixel_afterDraw, himage, hx, hy, Bool.xor_assoc, Bool.xor_self, Bool.xor_false]
  · rw [reg_VF_afterDraw_eq_one_iff, himage, hx, hy]
    refine exists_congr fun row => exists_congr fun col => and_congr_left fun hbit => ?_
    rw [pixel_afterDraw, hbit, Bool.xor_true, Bool.not_eq_true']

end Sys2Proof.Machine
end

section
/-!
PROOFS. Keypad and sound timer (spec/45_keypad.md, spec/46_timers.md): what the key skips, the rows of the key wait and
LD_ST_VX answer, and the statements this settles.
-/

namespace Sys2Proof.Machine

variable (s : State) (x : Reg)

/-! ### SKP and SKNP (R186 to R188) -/

theorem exec_skp : exec (.skp x) s = s.withKeyIndex (.skp x) x (fun k => s.skipIf (s.key k)) := rfl
theorem exec_sknp : exec (.sknp x) s = s.withKeyIndex (.sknp x) x (fun k => s.skipIf (!s.key k)) := rfl

/-- The words of opcode nibble 0xE, with the function added to the fixed part as the table writes it (R75). -/
theorem toNat_encodeXF_E (func : Nat) (h : func < 256) : (encodeXF 0xE x func).toNat = (0xE000 + func) + x.val * 256 := by
  rw [toNat_encodeXF 0xE x func (by decide) h]
  omega

/-- Settles O49: with a key index both are skips, on the key's level or its negation; with none both raise the fault. -/
theorem keySkipsTestTheKeyLevel : Obligations.KeySkipsTestTheKeyLevel := by
  unfold Obligations.KeySkipsTestTheKeyLevel
  refine fun x s => ⟨toNat_encodeXF_E x 0x9E (by decide), toNat_encodeXF_E x 0xA1 (by decide), fun k hk => ⟨?_, ?_⟩,
    fun hbad => ⟨?_, ?_⟩⟩
  · exact exec_skip_spec s ((exec_skp s x).trans (s.withKeyIndex_key hk)) Iff.rfl
  · exact exec_skip_spec s ((exec_sknp s x).trans (s.withKeyIndex_key hk)) (Bool.not_eq_true' _).to_iff
  · exact ⟨_, (exec_skp s x).trans (s.withKeyIndex_bad hbad), raisedOnly_raise ..⟩
  · exact ⟨_, (exec_sknp s x).trans (s.withKeyIndex_bad hbad), raisedOnly_raise ..⟩

/-! ### LD_VX_KEY (R189, R190) -/

section KeyWait

variable {s}

theorem exec_ldVxKey_idle (hkw : s.kw = none) (hl : s.leastHeld = none) : exec (.ldVxKey x) s = .next s := by
  simp only [exec, execLdVxKey, hkw, hl]

theorem exec_ldVxKey_latch {k : Reg} (hkw : s.kw = none) (hl : s.leastHeld = some k) :
    exec (.ldVxKey x) s = .next (s.setKw (some k)) := by
  simp only [exec, execLdVxKey, hkw, hl]

theorem exec_ldVxKey_wait {k : Reg} (hkw : s.kw = some k) (hk : s.key k = true) : exec (.ldVxKey x) s = .next s := by
  simp only [exec, execLdVxKey, hkw, hk, if_true]

theorem exec_ldVxKey_release {k : Reg} (hkw : s.kw = some k) (hk : s.key k = false) :
    exec (.ldVxKey x) s = .next ((s.setReg x (byteOf k.val)).setKw none).advance := by
  simp only [exec, execLdVxKey, hkw, hk, Bool.false_eq_true, if_false]

end KeyWait

theorem toNat_byteOf_reg (k : Reg) : (byteOf k.val).toNat = k.val := by
  rw [toNat_byteOf]; omega

/-- Settles O50: one row of the table each, the key latched being the least held. -/
theorem keyWaitFollowsItsStateTable : Obligations.KeyWaitFollowsItsStateTable := by
  unfold Obligations.KeyWaitFollowsItsStateTable
  refine fun x s => ⟨toNat_encodeXF_F x 0x0A (by decide), fun hkw hnone => ?_, fun k hkw hk hleast => ?_, fun k hkw hk => ?_,
    fun k hkw hk => ?_⟩
  · exact ⟨_, exec_ldVxKey_idle x hkw (s.leastHeld_eq_none.mpr hnone), OnlyChanges.refl s _⟩
  · exact ⟨_, exec_ldVxKey_latch x hkw ((s.leastHeld_eq_some k).mpr ⟨hk, hleast⟩), rfl, onlyChanges_setKw s _⟩
  · exact ⟨_, exec_ldVxKey_wait x hkw hk, OnlyChanges.refl s _⟩
  · have hreg : (((s.setReg x (byteOf k.val)).setKw none).advance.reg x).toNat = k.val :=
      (congrArg BitVec.toNat (reg_setReg_same s x _)).trans (toNat_byteOf_reg k)
    exact ⟨_, exec_ldVxKey_release x hkw hk, hreg, rfl, rfl,
      (onlyChanges_setReg s x _).andThen (onlyChanges_setKw _ none).advance⟩

/-! ### LD_ST_VX (R202) -/

theorem exec_ldStVx : exec (.ldStVx x) s = .next (s.setSt (s.reg x)).advance := rfl

/-- Settles O52: LD_ST_VX is a write of ST by V[x] and a move to the next word. -/
theorem soundTimerIsSetAndBeepWaits : Obligations.SoundTimerIsSetAndBeepWaits := by
  unfold Obligations.SoundTimerIsSetAndBeepWaits
  exact fun x s => ⟨toNat_encodeXF_F x 0x18 (by decide), _, exec_ldStVx s x, rfl, rfl, rfl, (onlyChanges_setSt s _).advance⟩

end Sys2Proof.Machine
end

section
/-!
PROOFS. What executing an instruction can do, said once for all 33 (spec/40_cycle_pipeline.md): it always answers a next
state; it raises one of its own faults or writes its own parts only; it never reads the rnd input unless it is RND. The
statements on faults, on writers and on the random input follow.
-/

namespace Sys2Proof.Machine

variable {s t u : State} {i : Instr}

/-! ### The instructions that branch -/

theorem exec_ret_cases (h : exec .ret s = .next t) :
    (s.sp = 0 ∧ t = s.raise .stackUnderflow (encode .ret) 0) ∨
      (0 < s.sp ∧ t = (s.setSp (s.sp - 1)).setPc (s.slot (s.sp - 1))) := by
  rcases Nat.eq_zero_or_pos s.sp with hsp | hsp
  · rw [exec_ret_of_sp_eq_zero s hsp] at h
    exact .inl ⟨hsp, (Host.Outcome.next.inj h).symm⟩
  · rw [exec_ret_of_sp_pos s hsp] at h
    exact .inr ⟨hsp, (Host.Outcome.next.inj h).symm⟩

theorem exec_call_cases {nnn : Addr12} (h : exec (.call nnn) s = .next t) :
    (s.config.stackDepth ≤ s.sp ∧ t = s.raise .stackOverflow (encode (.call nnn)) 0) ∨
      (s.sp < s.config.stackDepth ∧ t = (s.push (s.pc + 2)).setPc (zextAddr nnn)) := by
  rcases Nat.lt_or_ge s.sp s.config.stackDepth with hsp | hsp
  · rw [exec_call_of_room s nnn hsp] at h
    exact .inr ⟨hsp, (Host.Outcome.next.inj h).symm⟩
  · rw [exec_call_of_full s nnn hsp] at h
    exact .inl ⟨hsp, (Host.Outcome.next.inj h).symm⟩

/-- The four rows of the key wait (R190). -/
theorem ldVxKey_rows (s : State) :
    (s.kw = none ∧ s.leastHeld = none) ∨ (∃ k, s.kw = none ∧ s.leastHeld = some k) ∨
      (∃ k, s.kw = some k ∧ s.key k = true) ∨ (∃ k, s.kw = some k ∧ s.key k = false) := by
  cases s.kw with
  | none => cases s.leastHeld <;> simp
  | some k => cases hk : s.key k <;> simp [hk]

theorem exec_ldVxKey_cases {x : Reg} (h : exec (.ldVxKey x) s = .next t) :
    t = s ∨ (∃ k, t = s.setKw (some k)) ∨ ∃ b, t = ((s.setReg x b).setKw none).advance := by
  obtain ⟨hkw, hl⟩ | ⟨k, hkw, hl⟩ | ⟨k, hkw, hk⟩ | ⟨k, hkw, hk⟩ := ldVxKey_rows s
  · rw [exec_ldVxKey_idle x hkw hl] at h
    exact .inl (Host.Outcome.next.inj h).symm
  · rw [exec_ldVxKey_latch x hkw hl] at h
    exact .inr (.inl ⟨k, (Host.Outcome.next.inj h).symm⟩)
  · rw [exec_ldVxKey_wait x hkw hk] at h
    exact .inl (Host.Outcome.next.inj h).symm
  · rw [exec_ldVxKey_release x hkw hk] at h
    exact .inr (.inr ⟨_, (Host.Outcome.next.inj h).symm⟩)

/-- An LDM inside memory changes nothing but V, and pc as it moves on. -/
theorem exec_ldm_eq (s : State) (x : Reg) :
    ∃ v, exec (.ldm x) s = s.checkRange (.ldm x) (x.val + 1) (State.advance { s with v := v }) := by
  obtain ⟨⟨v, hv⟩, -⟩ := s.loadRegs_spec 0 (s.mem.readList (s.effAddr 0) (x.val + 1))
    (by rw [Memory.length_readList]; omega)
  exact ⟨v, by rw [exec_ldm, hv]⟩

/-! ### Every instruction answers a next state -/

theorem State.checkRange_next (s t : State) (i : Instr) (len : Nat) : ∃ u, s.checkRange i len t = .next u := by
  unfold State.checkRange
  split_ifs <;> exact ⟨_, rfl⟩

theorem State.withKeyIndex_next (s : State) (i : Instr) (x : Reg) (k : Reg → State) :
    ∃ u, s.withKeyIndex i x k = .next u := by
  unfold State.withKeyIndex
  split_ifs <;> exact ⟨_, rfl⟩

theorem exec_next (i : Instr) (s : State) : ∃ t, exec i s = .next t := by
  cases i
  case ret =>
    rcases Nat.eq_zero_or_pos s.sp with hsp | hsp
    · exact ⟨_, exec_ret_of_sp_eq_zero s hsp⟩
    · exact ⟨_, exec_ret_of_sp_pos s hsp⟩
  case call nnn =>
    rcases Nat.lt_or_ge s.sp s.config.stackDepth with hsp | hsp
    · exact ⟨_, exec_call_of_room s nnn hsp⟩
    · exact ⟨_, exec_call_of_full s nnn hsp⟩
  case ldVxKey x =>
    obtain ⟨hkw, hl⟩ | ⟨k, hkw, hl⟩ | ⟨k, hkw, hk⟩ | ⟨k, hkw, hk⟩ := ldVxKey_rows s
    · exact ⟨_, exec_ldVxKey_idle x hkw hl⟩
    · exact ⟨_, exec_ldVxKey_latch x hkw hl⟩
    · exact ⟨_, exec_ldVxKey_wait x hkw hk⟩
    · exact ⟨_, exec_ldVxKey_release x hkw hk⟩
  case drw | bcd | stm | ldm => exact s.checkRange_next _ _ _
  case skp x => rw [exec_skp]; exact s.withKeyIndex_next _ _ _
  case sknp x => rw [exec_sknp]; exact s.withKeyIndex_next _ _ _
  all_goals exact ⟨_, rfl⟩

/-! ### The frame of every instruction -/

/-- The parts an instruction may write when it raises no fault (R93): pc, and those whose writers
`EachPieceOfStateHasItsOwnWriters` and `RegistersAreWrittenOnlyAsDestinationOrFlag` list. -/
def MayWrite (i : Instr) : Part → Prop
  | .reg r => Instr.mayWriteReg i r
  | .index => (∃ nnn, i = .ldI nnn) ∨ ∃ x, i = .addI x
  | .pc => True
  | .sp => (∃ nnn, i = .call nnn) ∨ i = .ret
  | .slot _ => ∃ nnn, i = .call nnn
  | .byte _ => (∃ x, i = .bcd x) ∨ ∃ x, i = .stm x
  | .pixel _ _ => i = .cls ∨ ∃ x y n, i = .drw x y n
  | .delay => ∃ x, i = .ldDtVx x
  | .sound => ∃ x, i = .ldStVx x
  | .keyWait => ∃ x, i = .ldVxKey x
  | .rndCount => ∃ x nn, i = .rnd x nn
  | .key _ | .beep | .fault | .config | .events | .rndIn | .loadResult => False

/-- The faults an instruction may raise (60_exceptions.md section 1). -/
def MayRaise (i : Instr) : FaultCause → Prop
  | .stackUnderflow => i = .ret
  | .stackOverflow => ∃ nnn, i = .call nnn
  | .outOfBounds => (∃ x y n, i = .drw x y n) ∨ (∃ x, i = .bcd x) ∨ (∃ x, i = .stm x) ∨ ∃ x, i = .ldm x
  | .badKeyIndex => (∃ x, i = .skp x) ∨ ∃ x, i = .sknp x
  | .noFault | .unimplementedOpcode => False

/-- How `i` takes `s` to `t`: it raises one of its own faults, with its word recorded, or it writes its own parts only.
-/
inductive Framed (i : Instr) (s t : State) : Prop where
  | raised (cause : FaultCause) (addr : Word) (hc : MayRaise i cause) (ht : t = s.raise cause (encode i) addr)
  | wrote (h : OnlyChanges s t (MayWrite i))

theorem framed_of_checkRange {len : Nat} (h : s.checkRange i len u = .next t) (hi : MayRaise i .outOfBounds)
    (hu : OnlyChanges s u (MayWrite i)) : Framed i s t := by
  obtain ⟨-, rfl⟩ | ⟨-, rfl⟩ := s.checkRange_cases _ _ h
  · exact .raised _ _ hi rfl
  · exact .wrote hu

theorem framed_of_withKeyIndex {x : Reg} {k : Reg → State} (h : s.withKeyIndex i x k = .next t)
    (hi : MayRaise i .badKeyIndex) (hk : ∀ q, OnlyChanges s (k q) (MayWrite i)) : Framed i s t := by
  obtain ⟨-, rfl⟩ | ⟨q, -, rfl⟩ := s.withKeyIndex_cases _ h
  · exact .raised _ _ hi rfl
  · exact .wrote (hk q)

theorem exec_framed (h : exec i s = .next t) : Framed i s t := by
  cases i
  case cls =>
    cases h
    exact .wrote ((onlyChanges_setFb_advance s _).mono (by rintro _ (⟨_, _, rfl⟩ | rfl); exacts [.inl rfl, trivial]))
  case ret =>
    obtain ⟨-, rfl⟩ | ⟨-, rfl⟩ := exec_ret_cases h
    · exact .raised .stackUnderflow _ rfl rfl
    · exact .wrote (((onlyChanges_setSp s _).andThen (onlyChanges_setPc _ _)).mono
        (by rintro _ (rfl | rfl); exacts [.inr rfl, trivial]))
  case call nnn =>
    obtain ⟨-, rfl⟩ | ⟨-, rfl⟩ := exec_call_cases h
    · exact .raised .stackOverflow _ ⟨nnn, rfl⟩ rfl
    · exact .wrote ((onlyChanges_push_setPc s _ _).mono
        (by rintro _ (rfl | rfl | rfl); exacts [⟨nnn, rfl⟩, .inl ⟨nnn, rfl⟩, trivial]))
  case jp | jpV0 | seImm | sneImm | seReg | sneReg =>
    cases h
    exact .wrote ((onlyChanges_setPc s _).mono (by rintro _ rfl; trivial))
  case ldImm | addImm | ldReg | or | and | xor | ldVxDt =>
    cases h
    exact .wrote ((onlyChanges_setReg_advance s _ _).mono (by rintro _ (rfl | rfl); exacts [rfl, trivial]))
  case addReg | subn =>
    cases h
    exact .wrote ((onlyChanges_result_flag s _ _ _).mono
      (by rintro _ (rfl | rfl | rfl); exacts [.inl rfl, .inr rfl, trivial]))
  case sub | shr | shl =>
    cases h
    exact .wrote ((onlyChanges_flag_result s _ _ _).mono
      (by rintro _ (rfl | rfl | rfl); exacts [.inl rfl, .inr rfl, trivial]))
  case ldI nnn =>
    cases h
    exact .wrote ((onlyChanges_setIndex_advance s _).mono
      (by rintro _ (rfl | rfl); exacts [.inl ⟨nnn, rfl⟩, trivial]))
  case rnd x nn =>
    cases h
    exact .wrote (((onlyChanges_setReg s x _).andThen (onlyChanges_countRnd _).advance).mono
      (by rintro _ (rfl | rfl | rfl); exacts [rfl, ⟨x, nn, rfl⟩, trivial]))
  case drw x y n =>
    refine framed_of_checkRange h (.inl ⟨x, y, n, rfl⟩) ((onlyChanges_afterDraw s x y n).mono ?_)
    rintro _ (⟨_, _, rfl⟩ | rfl | rfl)
    exacts [.inr ⟨x, y, n, rfl⟩, rfl, trivial]
  case skp x =>
    rw [exec_skp] at h
    exact framed_of_withKeyIndex h (.inl ⟨x, rfl⟩) fun _ => (onlyChanges_setPc s _).mono (by rintro _ rfl; trivial)
  case sknp x =>
    rw [exec_sknp] at h
    exact framed_of_withKeyIndex h (.inr ⟨x, rfl⟩) fun _ => (onlyChanges_setPc s _).mono (by rintro _ rfl; trivial)
  case ldVxKey x =>
    obtain rfl | ⟨k, rfl⟩ | ⟨b, rfl⟩ := exec_ldVxKey_cases h
    · exact .wrote (OnlyChanges.refl _ _)
    · exact .wrote ((onlyChanges_setKw s _).mono (by rintro _ rfl; exact ⟨x, rfl⟩))
    · exact .wrote (((onlyChanges_setReg s x b).andThen (onlyChanges_setKw _ none).advance).mono
        (by rintro _ (rfl | rfl | rfl); exacts [rfl, ⟨x, rfl⟩, trivial]))
  case ldDtVx x =>
    cases h
    exact .wrote ((onlyChanges_setDt_advance s _).mono (by rintro _ (rfl | rfl); exacts [⟨x, rfl⟩, trivial]))
  case ldStVx x =>
    cases h
    exact .wrote ((onlyChanges_setSt s _).advance.mono (by rintro _ (rfl | rfl); exacts [⟨x, rfl⟩, trivial]))
  case addI x =>
    cases h
    exact .wrote (((onlyChanges_setIndex s _).andThen (onlyChanges_setReg_advance _ VF _)).mono
      (by rintro _ (rfl | rfl | rfl); exacts [.inr ⟨x, rfl⟩, rfl, trivial]))
  case bcd x =>
    refine framed_of_checkRange h (.inr (.inl ⟨x, rfl⟩)) ((onlyChanges_writeList_advance s _).mono ?_)
    rintro _ (⟨_, -, rfl⟩ | rfl)
    exacts [.inl ⟨x, rfl⟩, trivial]
  case stm x =>
    refine framed_of_checkRange h (.inr (.inr (.inl ⟨x, rfl⟩))) ((onlyChanges_writeList_advance s _).mono ?_)
    rintro _ (⟨_, -, rfl⟩ | rfl)
    exacts [.inr ⟨x, rfl⟩, trivial]
  case ldm x =>
    refine framed_of_checkRange h (.inr (.inr (.inr ⟨x, rfl⟩))) ((onlyChanges_loadRegs_readList s x).advance.mono ?_)
    rintro _ (⟨_, hj, rfl⟩ | rfl)
    exacts [hj, trivial]

theorem onlyChanges_raise (s : State) (cause : FaultCause) (opcode addr : Word) :
    OnlyChanges s (s.raise cause opcode addr) (fun p => p = .fault) :=
  (raisedOnly_raise s cause opcode addr).2

/-- A part other than FAULT that changed is one the instruction may write. -/
theorem Framed.mayWrite (h : Framed i s t) {p : Part} (hp : p ≠ .fault) (hne : ¬ p.same s t) : MayWrite i p := by
  by_contra hw
  refine hne ?_
  cases h with
  | raised cause addr hc ht => subst ht; exact (onlyChanges_raise s cause (encode i) addr).same hp
  | wrote hframe => exact hframe.same hw

/-- A part the instruction may not write is unchanged. -/
theorem Framed.same (h : Framed i s t) {p : Part} (hp : p ≠ .fault) (hw : ¬ MayWrite i p) : p.same s t := by
  by_contra hne
  exact hw (h.mayWrite hp hne)

/-- Settles O14: an instruction that did not raise a fault left FAULT alone. -/
theorem executeFaultsArePreciseAndBelongToTheirInstruction :
    Obligations.ExecuteFaultsArePreciseAndBelongToTheirInstruction := by
  unfold Obligations.ExecuteFaultsArePreciseAndBelongToTheirInstruction
  intro i s t h hne
  cases exec_framed h with
  | wrote hframe => exact absurd (hframe.same (p := .fault) not_false) hne
  | raised cause addr hc ht =>
    subst ht
    refine ⟨onlyChanges_raise s cause _ addr, rfl, rfl, ?_⟩
    cases cause
    case noFault | unimplementedOpcode => exact hc.elim
    case stackUnderflow => exact .inl ⟨rfl, hc⟩
    case stackOverflow => exact .inr (.inl ⟨rfl, hc⟩)
    case outOfBounds => exact .inr (.inr (.inl ⟨rfl, hc⟩))
    case badKeyIndex => exact .inr (.inr (.inr ⟨rfl, hc⟩))

/-- The stack changed as a list only if one of its slots did. -/
theorem Framed.stack_eq (h : Framed i s t) (hw : ∀ j, ¬ MayWrite i (.slot j)) : t.stack = s.stack :=
  List.ext_getElem? fun j => h.same (p := .slot j) (by simp) (hw j)

/-- Settles O15: part by part, a change names the part's writers. -/
theorem eachPieceOfStateHasItsOwnWriters : Obligations.EachPieceOfStateHasItsOwnWriters := by
  unfold Obligations.EachPieceOfStateHasItsOwnWriters
  intro i s t h
  have hf := exec_framed h
  refine ⟨fun k => ?_, ?_, ?_, ?_, ?_, ?_, fun hne => ?_, fun hne => ?_, fun hne => ?_, fun hne => ?_, fun a hne => ?_,
    fun row col hne => ?_, fun hne => ?_, fun hne => ?_, fun hne => ?_⟩
  · exact hf.same (p := .key k) (by simp) not_false
  · exact hf.same (p := .beep) (by simp) not_false
  · exact hf.same (p := .config) (by simp) not_false
  · exact hf.same (p := .events) (by simp) not_false
  · exact hf.same (p := .rndIn) (by simp) not_false
  · exact hf.same (p := .loadResult) (by simp) not_false
  · exact hf.mayWrite (p := .delay) (by simp) hne
  · exact hf.mayWrite (p := .sound) (by simp) hne
  · exact hf.mayWrite (p := .keyWait) (by simp) hne
  · exact hf.mayWrite (p := .index) (by simp) hne
  · exact hf.mayWrite (p := .byte a) (by simp) hne
  · exact hf.mayWrite (p := .pixel row col) (by simp) hne
  · exact hf.mayWrite (p := .sp) (by simp) hne
  · by_contra hcall
    exact hne (hf.stack_eq fun _ => hcall)
  · exact hf.mayWrite (p := .rndCount) (by simp) hne

/-- Settles O16: the same for a register. -/
theorem registersAreWrittenOnlyAsDestinationOrFlag : Obligations.RegistersAreWrittenOnlyAsDestinationOrFlag := by
  unfold Obligations.RegistersAreWrittenOnlyAsDestinationOrFlag
  exact fun i s t r h hne => (exec_framed h).mayWrite (p := .reg r) (by simp) hne

/-! ### The rnd input (R93) -/

theorem State.checkRange_presentRnd (b : Option Byte) {len : Nat} (h : s.checkRange i len u = .next t) :
    (s.presentRnd b).checkRange i len (u.presentRnd b) = .next (t.presentRnd b) := by
  obtain ⟨hr, rfl⟩ | ⟨hr, rfl⟩ := s.checkRange_cases _ _ h
  · exact if_pos hr
  · exact if_neg (ne_true_of_eq_false hr)

theorem State.withKeyIndex_presentRnd (b : Option Byte) {x : Reg} {k : Reg → State}
    (h : s.withKeyIndex i x k = .next t) :
    (s.presentRnd b).withKeyIndex i x (fun q => (k q).presentRnd b) = .next (t.presentRnd b) := by
  obtain ⟨hbad, rfl⟩ | ⟨q, hq, rfl⟩ := s.withKeyIndex_cases _ h
  · exact (s.presentRnd b).withKeyIndex_bad hbad
  · exact (s.presentRnd b).withKeyIndex_key hq

theorem State.loadRegs_presentRnd (s : State) (b : Option Byte) (j : Nat) (bs : List Byte) :
    (s.presentRnd b).loadRegs j bs = (s.loadRegs j bs).presentRnd b := by
  induction bs generalizing s j with
  | nil => rfl
  | cons c rest ih => exact ih (s.setReg _ c) (j + 1)

theorem exec_presentRnd (b : Option Byte) (hi : ∀ x nn, i ≠ .rnd x nn) (h : exec i s = .next t) :
    exec i (s.presentRnd b) = .next (t.presentRnd b) := by
  cases i
  case rnd x nn => exact absurd rfl (hi x nn)
  case ret =>
    obtain ⟨hsp, rfl⟩ | ⟨hsp, rfl⟩ := exec_ret_cases h
    · exact exec_ret_of_sp_eq_zero (s.presentRnd b) hsp
    · exact exec_ret_of_sp_pos (s.presentRnd b) hsp
  case call nnn =>
    obtain ⟨hsp, rfl⟩ | ⟨hsp, rfl⟩ := exec_call_cases h
    · exact exec_call_of_full (s.presentRnd b) nnn hsp
    · exact exec_call_of_room (s.presentRnd b) nnn hsp
  case ldVxKey x =>
    obtain ⟨hkw, hl⟩ | ⟨k, hkw, hl⟩ | ⟨k, hkw, hk⟩ | ⟨k, hkw, hk⟩ := ldVxKey_rows s
    · cases (exec_ldVxKey_idle x hkw hl).symm.trans h
      exact exec_ldVxKey_idle (s := s.presentRnd b) x hkw hl
    · cases (exec_ldVxKey_latch x hkw hl).symm.trans h
      exact exec_ldVxKey_latch (s := s.presentRnd b) x hkw hl
    · cases (exec_ldVxKey_wait x hkw hk).symm.trans h
      exact exec_ldVxKey_wait (s := s.presentRnd b) x hkw hk
    · cases (exec_ldVxKey_release x hkw hk).symm.trans h
      exact exec_ldVxKey_release (s := s.presentRnd b) x hkw hk
  case drw | bcd | stm => exact State.checkRange_presentRnd b h
  case ldm x =>
    have hload := s.loadRegs_presentRnd b 0 (s.mem.readList (s.effAddr 0) (x.val + 1))
    exact (congrArg (fun u => (s.presentRnd b).checkRange (.ldm x) (x.val + 1) u.advance) hload).trans
      (State.checkRange_presentRnd b h)
  case skp x =>
    rw [exec_skp] at h
    exact State.withKeyIndex_presentRnd b h
  case sknp x =>
    rw [exec_sknp] at h
    exact State.withKeyIndex_presentRnd b h
  all_goals cases h; rfl

/-- Settles O17: what an instruction other than RND answers carries the rnd input along unread. -/
theorem onlyRndReadsTheRandomInput : Obligations.OnlyRndReadsTheRandomInput := by
  unfold Obligations.OnlyRndReadsTheRandomInput
  exact fun i b s t hi h => exec_presentRnd b hi h

end Sys2Proof.Machine
end

section
/-!
PROOFS. What an instruction does to pc, the call stack and memory, said once (spec/10_state.md sections 4 and 5): from
it, that pc stays even with even targets, and that every step keeps the invariant.
-/

namespace Sys2Proof.Machine

variable {s t u : State} {i : Instr}

/-! ### pc and the call stack (R23 to R27) -/

theorem toNat_add_two (w : Word) : (w + 2).toNat = (w.toNat + 2) % 65536 := BitVec.toNat_add w 2

theorem toNat_add_four (w : Word) : (w + 4).toNat = (w.toNat + 4) % 65536 := BitVec.toNat_add w 4

/-- How `i` moves pc and the call stack from `s` to `t`: on past the word or over the next one (or not at all: a fault,
or a key wait), a jump, a call or a return. -/
inductive Control (i : Instr) (s t : State) : Prop where
  | next (hpc : t.pc = s.pc ∨ t.pc = s.pc + 2 ∨ t.pc = s.pc + 4) (hsp : t.sp = s.sp) (hstack : t.stack = s.stack)
  | jump (nnn : Addr12) (hi : i = .jp nnn) (hpc : t.pc = zextAddr nnn) (hsp : t.sp = s.sp) (hstack : t.stack = s.stack)
  | jumpV0 (nnn : Addr12) (hi : i = .jpV0 nnn) (hpc : t.pc = zext16 (s.reg 0) + zextAddr nnn) (hsp : t.sp = s.sp)
      (hstack : t.stack = s.stack)
  | call (nnn : Addr12) (hi : i = .call nnn) (hpc : t.pc = zextAddr nnn) (hroom : s.sp < s.config.stackDepth)
      (hsp : t.sp = s.sp + 1) (hstack : t.stack = (s.setSlot s.sp (s.pc + 2)).stack)
  | ret (hpos : 0 < s.sp) (hpc : t.pc = s.slot (s.sp - 1)) (hsp : t.sp = s.sp - 1) (hstack : t.stack = s.stack)

theorem control_raise (c : FaultCause) (o a : Word) : Control i s (s.raise c o a) := .next (.inl rfl) rfl rfl

theorem control_skipIf (c : Bool) : Control i s (s.skipIf c) := by
  refine .next (.inr ?_) rfl rfl
  cases c
  · exact .inl rfl
  · exact .inr rfl

/-- The next word, for an instruction that has written neither pc nor the stack. -/
theorem control_advance (hpc : u.pc = s.pc) (hsp : u.sp = s.sp) (hstack : u.stack = s.stack) : Control i s u.advance :=
  .next (.inr (.inl (congrArg (· + 2) hpc))) hsp hstack

theorem control_of_checkRange {j : Instr} {len : Nat} (h : s.checkRange j len u = .next t) (hu : Control i s u) :
    Control i s t := by
  obtain ⟨-, rfl⟩ | ⟨-, rfl⟩ := s.checkRange_cases _ _ h
  · exact control_raise _ _ _
  · exact hu

theorem control_of_withKeyIndex {j : Instr} {x : Reg} {k : Reg → State} (h : s.withKeyIndex j x k = .next t)
    (hk : ∀ q, Control i s (k q)) : Control i s t := by
  obtain ⟨-, rfl⟩ | ⟨q, -, rfl⟩ := s.withKeyIndex_cases _ h
  · exact control_raise _ _ _
  · exact hk q

theorem exec_control (h : exec i s = .next t) : Control i s t := by
  cases i
  case jp nnn => cases h; exact .jump nnn rfl rfl rfl rfl
  case jpV0 nnn => cases h; exact .jumpV0 nnn rfl rfl rfl rfl
  case call nnn =>
    obtain ⟨-, rfl⟩ | ⟨hroom, rfl⟩ := exec_call_cases h
    · exact control_raise _ _ _
    · exact .call nnn rfl rfl hroom rfl rfl
  case ret =>
    obtain ⟨-, rfl⟩ | ⟨hpos, rfl⟩ := exec_ret_cases h
    · exact control_raise _ _ _
    · exact .ret hpos rfl rfl rfl
  case seImm | sneImm | seReg | sneReg => cases h; exact control_skipIf _
  case skp x =>
    rw [exec_skp] at h
    exact control_of_withKeyIndex h fun _ => control_skipIf _
  case sknp x =>
    rw [exec_sknp] at h
    exact control_of_withKeyIndex h fun _ => control_skipIf _
  case ldVxKey x =>
    obtain rfl | ⟨k, rfl⟩ | ⟨b, rfl⟩ := exec_ldVxKey_cases h
    · exact .next (.inl rfl) rfl rfl
    · exact .next (.inl rfl) rfl rfl
    · exact control_advance rfl rfl rfl
  case drw | bcd | stm => exact control_of_checkRange h (control_advance rfl rfl rfl)
  case ldm x =>
    obtain ⟨v, hv⟩ := exec_ldm_eq s x
    rw [hv] at h
    exact control_of_checkRange h (control_advance rfl rfl rfl)
  all_goals cases h; exact control_advance rfl rfl rfl

theorem slot_congr (h : t.stack = s.stack) (j : Nat) : t.slot j = s.slot j := congrArg (·.getD j 0) h

theorem slot_of_length_le {j : Nat} (h : s.stack.length ≤ j) : s.slot j = 0 := by
  rw [State.slot, List.getD_eq_getElem?_getD, List.getElem?_eq_none h, Option.getD_none]

/-- What holds of 0, of the live return addresses and of the address after the instruction holds of the live return
addresses after it. -/
theorem Control.live {R : Word → Prop} (h : Control i s t) (hzero : R 0) (hnext : R (s.pc + 2))
    (hlive : ∀ j, j < s.sp → R (s.slot j)) : ∀ j, j < t.sp → R (t.slot j) := by
  intro j hj
  cases h with
  | next _ hsp hstack | jump _ _ _ hsp hstack | jumpV0 _ _ _ hsp hstack =>
    rw [slot_congr hstack]
    exact hlive j (hsp ▸ hj)
  | ret _ _ hsp hstack =>
    rw [slot_congr hstack]
    exact hlive j (by omega)
  | call nnn _ _ _ hsp hstack =>
    rw [slot_congr hstack, State.slot_setSlot]
    split_ifs with hnew
    · exact hnext
    · by_cases hlt : j < s.sp
      · exact hlive j hlt
      · rw [slot_of_length_le (by omega)]
        exact hzero

/-! ### pc stays even (R24) -/

/-- Settles O29: pc moves by an even number, to an even target, or back to an even return address. -/
theorem pcStaysEvenWithEvenTargets : Obligations.PcStaysEvenWithEvenTargets := by
  unfold Obligations.PcStaysEvenWithEvenTargets
  intro i s t hpc hlive htarget hindexed h
  have hcontrol := exec_control h
  have hnext : (s.pc + 2).toNat % 2 = 0 := by rw [toNat_add_two]; omega
  have hskip : (s.pc + 4).toNat % 2 = 0 := by rw [toNat_add_four]; omega
  refine ⟨?_, hcontrol.live (R := fun w => w.toNat % 2 = 0) rfl hnext hlive⟩
  cases hcontrol with
  | next hmove =>
    obtain h | h | h := hmove <;> rw [h]
    exacts [hpc, hnext, hskip]
  | jump nnn hi hto => rw [hto, toNat_zextAddr]; exact htarget nnn (.inl hi)
  | call nnn hi hto => rw [hto, toNat_zextAddr]; exact htarget nnn (.inr hi)
  | jumpV0 nnn hi hto => rw [hto, toNat_zext16_add_zextAddr]; exact hindexed nnn hi
  | ret hpos hto => rw [hto]; exact hlive _ (by omega)

/-! ### Memory stays canonical (R50) -/

theorem State.range_le_of_outOfRange_false {len : Nat} (hl : 0 < len) (h : s.outOfRange len = false) :
    s.iReg.toNat + len ≤ memSize := by
  have hin := (not_congr (s.outOfRange_iff len)).mp (ne_true_of_eq_false h)
  simp only [memSize]
  omega

/-- Bytes stored at I after the bound check stay inside memory. -/
theorem wf_of_checkRange_writeList {j : Instr} {bs : List Byte} (hl : 0 < bs.length) (hm : s.mem.wf)
    (h : s.checkRange j bs.length (s.setMem (s.mem.writeList (s.effAddr 0) bs)).advance = .next t) : t.mem.wf := by
  obtain ⟨-, rfl⟩ | ⟨hin, rfl⟩ := s.checkRange_cases _ _ h
  · exact hm
  · exact Memory.wf_writeList hm (State.range_le_of_outOfRange_false hl hin)

/-- Only BCD and STM replace memory; the others that may raise a fault answer a state with the same memory. -/
theorem exec_mem_wf (hm : s.mem.wf) (h : exec i s = .next t) : t.mem.wf := by
  cases i
  case bcd x => exact wf_of_checkRange_writeList (bs := decimalDigits (s.reg x)) (Nat.succ_pos 2) hm h
  case stm x =>
    rw [exec_stm, ← State.length_regsUpTo s] at h
    exact wf_of_checkRange_writeList (by rw [State.length_regsUpTo]; omega) hm h
  case ret => obtain ⟨-, rfl⟩ | ⟨-, rfl⟩ := exec_ret_cases h <;> exact hm
  case call => obtain ⟨-, rfl⟩ | ⟨-, rfl⟩ := exec_call_cases h <;> exact hm
  case ldVxKey => obtain rfl | ⟨k, rfl⟩ | ⟨b, rfl⟩ := exec_ldVxKey_cases h <;> exact hm
  case drw => obtain ⟨-, rfl⟩ | ⟨-, rfl⟩ := s.checkRange_cases _ _ h <;> exact hm
  case ldm x =>
    obtain ⟨v, hv⟩ := exec_ldm_eq s x
    rw [hv] at h
    obtain ⟨-, rfl⟩ | ⟨-, rfl⟩ := s.checkRange_cases _ _ h <;> exact hm
  case skp x =>
    rw [exec_skp] at h
    obtain ⟨-, rfl⟩ | ⟨q, -, rfl⟩ := s.withKeyIndex_cases _ h <;> exact hm
  case sknp x =>
    rw [exec_sknp] at h
    obtain ⟨-, rfl⟩ | ⟨q, -, rfl⟩ := s.withKeyIndex_cases _ h <;> exact hm
  all_goals cases h; exact hm

/-! ### The invariant -/

/-- What the invariant says of FAULT (R32). -/
theorem exec_fault_bounds (hs : s.Inv) (h : exec i s = .next t) :
    (t.fault.cause = .noFault → t.fault = .none) ∧ t.fault.pc.toNat ≤ 0x10FE := by
  cases exec_framed h with
  | raised cause addr hc ht =>
    have hcause : cause ≠ .noFault := by rintro rfl; exact hc
    subst ht
    exact ⟨fun hnone => absurd hnone hcause, hs.pc_le⟩
  | wrote hframe =>
    have hfault : t.fault = s.fault := hframe.same (p := .fault) not_false
    rw [hfault]
    exact ⟨hs.no_fault, hs.fault_pc_le⟩

/-- After a fetch inside memory an instruction leaves pc at most 0x10FE: 0xFFF + 0xFF is the farthest JP_V0 goes (R25).
-/
theorem Control.pc_le (h : Control i s t) (hs : s.Inv) (hfetch : s.pc.toNat ≤ 0xFFE) : t.pc.toNat ≤ 0x10FE := by
  cases h with
  | next hmove =>
    obtain h | h | h := hmove <;> rw [h]
    · omega
    · rw [toNat_add_two]; omega
    · rw [toNat_add_four]; omega
  | jump nnn _ hto | call nnn _ hto => rw [hto, toNat_zextAddr]; omega
  | jumpV0 nnn _ hto => rw [hto, toNat_zext16_add_zextAddr]; omega
  | ret hpos hto =>
    rw [hto]
    exact (hs.live _ (by omega)).trans (by decide)

theorem Control.depth_le (h : Control i s t) (hs : s.sp ≤ s.config.stackDepth) : t.sp ≤ s.config.stackDepth := by
  cases h with
  | next _ hsp | jump _ _ _ hsp | jumpV0 _ _ _ hsp => exact hsp ▸ hs
  | call _ _ _ hroom hsp => omega
  | ret _ _ hsp => omega

theorem Control.length_stack (h : Control i s t) : t.stack.length = s.stack.length := by
  cases h with
  | next _ _ hstack | jump _ _ _ _ hstack | jumpV0 _ _ _ _ hstack | ret _ _ _ hstack => rw [hstack]
  | call _ _ _ _ _ hstack => rw [hstack]; exact List.length_set

theorem exec_inv (hs : s.Inv) (hfetch : s.pc.toNat ≤ 0xFFE) (h : exec i s = .next t) : t.Inv := by
  have hcontrol := exec_control h
  have hconfig : t.config = s.config := (exec_framed h).same (p := .config) (by simp) not_false
  have hnext : (s.pc + 2).toNat ≤ 0x1000 := by rw [toNat_add_two]; omega
  obtain ⟨hnone, hfaultpc⟩ := exec_fault_bounds hs h
  exact {
    mem_wf := exec_mem_wf hs.mem_wf h
    slots := by rw [hcontrol.length_stack, hconfig]; exact hs.slots
    depth := by rw [hconfig]; exact hcontrol.depth_le hs.depth
    live := hcontrol.live (R := fun w => w.toNat ≤ 0x1000) (by decide) hnext hs.live
    pc_le := hcontrol.pc_le hs hfetch
    no_fault := hnone
    fault_pc_le := hfaultpc }

theorem cycle_inv (hs : s.Inv) (h : cycle s = .next t) : t.Inv := by
  obtain ⟨-, rfl⟩ | ⟨-, -, rfl⟩ | ⟨-, -, -, rfl⟩ | ⟨-, hfetch, i, -, hx⟩ := cycle_cases h
  · exact hs
  · exact inv_raise hs _ _ (by decide)
  · exact inv_raise hs _ _ (by decide)
  · exact exec_inv hs hfetch hx

theorem inv_resetWith (c : Config) (g : HostSide) : (State.resetWith c g).Inv where
  mem_wf := Memory.wf_nil
  slots := List.length_replicate
  depth := Nat.zero_le _
  live := fun j hj => absurd hj (Nat.not_lt_zero j)
  pc_le := (by decide : (0x200 : Word).toNat ≤ 0x10FE)
  no_fault := fun _ => rfl
  fault_pc_le := (by decide : FaultRecord.none.pc.toNat ≤ 0x10FE)

theorem eventLoad_inv (bytes : List Byte) (hs : s.Inv) : (eventLoad bytes s).Inv := by
  unfold eventLoad
  split_ifs with hlen
  · exact inv_setHost hs _
  · have hwf : (s.mem.writeList loadBase bytes).wf := Memory.wf_writeList hs.mem_wf (by
      simp only [maxProg, loadBase, memSize] at hlen ⊢; omega)
    exact inv_setHost (inv_of (t := s.setMem _) hs hwf rfl rfl rfl hs.pc_le rfl) _

/-- Settles O53: the reset state is what `inv_resetWith` speaks of. -/
theorem resetMeetsTheInvariant : Obligations.ResetMeetsTheInvariant := inv_resetWith _ _

/-- Settles O54: event by event; INIT leaves the reset state, LOAD stores inside memory, SETKEY and TICK write nothing
the invariant speaks of, and a cycle fetches inside memory before it executes. -/
theorem stepKeepsTheInvariant : Obligations.StepKeepsTheInvariant := by
  unfold Obligations.StepKeepsTheInvariant
  intro s t hs h
  have htaken : s.takeEvent.Inv := inv_setHost hs _
  obtain ⟨-, rfl⟩ | ⟨bytes, -, rfl⟩ | ⟨k, l, -, rfl⟩ | ⟨b, -, hc⟩ | ⟨-, rfl⟩ := step_cases h
  · exact inv_resetWith _ _
  · exact eventLoad_inv bytes htaken
  · exact inv_of htaken htaken.mem_wf rfl rfl rfl htaken.pc_le rfl
  · exact cycle_inv (inv_setHost htaken _) hc
  · exact inv_of htaken htaken.mem_wf rfl rfl rfl htaken.pc_le rfl

end Sys2Proof.Machine
end

section
/-!
PROOFS. The host's events one by one (spec/20_memory.md section 6, spec/40_cycle_pipeline.md, spec/45_keypad.md,
spec/46_timers.md, spec/70_reset_and_hazards.md): what a step answers for INIT, LOAD, SETKEY, TICK and CYCLE, and the
statements this settles.
-/

namespace Sys2Proof.Machine

variable {s t : State}

/-! ### INIT (R250) -/

/-- Two reset states with the same parameters differ in the host's side only. -/
theorem onlyChanges_resetWith (c : Config) (g h : HostSide) : OnlyChanges (State.resetWith c g) (State.resetWith c h)
    (fun p => p = .events ∨ p = .rndIn ∨ p = .rndCount ∨ p = .loadResult) := fun p hp => by
  cases p
  case events | rndIn | rndCount | loadResult => simp at hp
  all_goals rfl

/-- Settles O2: INIT answers the reset state of the machine's own parameters, here those of the model's reset state. -/
theorem resetStateIsWhatInitLeaves : Obligations.ResetStateIsWhatInitLeaves := by
  unfold Obligations.ResetStateIsWhatInitLeaves
  refine ⟨rfl, rfl, fun s hc hs => ⟨_, step_init hs, rfl, ?_⟩⟩
  rw [hc]
  exact onlyChanges_resetWith State.reset.config _ _

/-! ### LOAD (R60, R61, R233) -/

theorem step_load {bytes : List Byte} (hs : s.host.events.next = .load bytes) (hlen : bytes.length ≤ 3584) :
    step s = .next ((s.takeEvent.setMem (s.mem.writeList 0x200 bytes)).reportLoad .accepted) := by
  rw [step_event hs]
  exact congrArg Host.Outcome.next (if_neg (Nat.not_lt.mpr hlen))

theorem step_load_refused {bytes : List Byte} (hs : s.host.events.next = .load bytes) (hlen : bytes.length > 3584) :
    step s = .next (s.takeEvent.reportLoad .romTooLarge) := by
  rw [step_event hs]
  exact congrArg Host.Outcome.next (if_pos hlen)

/-- Settles O3: the bytes are stored at 0x200, the result reported, and the event taken. -/
theorem loadCopiesTheProgramAndNothingElse : Obligations.LoadCopiesTheProgramAndNothingElse := by
  unfold Obligations.LoadCopiesTheProgramAndNothingElse
  intro s bytes hs hlen
  refine ⟨_, step_load hs hlen, fun i h => Memory.read_writeList_of_lt _ _ _ _ h, rfl, ?_⟩
  refine ((onlyChanges_takeEvent s).andThen ((onlyChanges_writeList _ 0x200 bytes).andThen
    (onlyChanges_reportLoad _ .accepted))).mono ?_
  rintro p (hp | hp | hp)
  exacts [.inr (.inl hp), .inl hp, .inr (.inr hp)]

/-- Settles O4: past 3584 bytes only the result is reported; up to there the program is accepted, and 3584 bytes are all
stored. -/
theorem oversizedLoadIsRejectedBeforeAnyMutation : Obligations.OversizedLoadIsRejectedBeforeAnyMutation := by
  unfold Obligations.OversizedLoadIsRejectedBeforeAnyMutation
  intro s bytes hs
  rcases Nat.lt_or_ge 3584 bytes.length with hlen | hlen
  · refine ⟨_, step_load_refused hs hlen, fun _ => ⟨rfl, ?_⟩, fun hle => absurd hle (by omega),
      fun heq => absurd heq (by omega)⟩
    exact (onlyChanges_takeEvent s).andThen (onlyChanges_reportLoad _ .romTooLarge)
  · refine ⟨_, step_load hs hlen, fun hgt => absurd hgt (by omega), fun _ => rfl, fun heq i hi => ?_⟩
    exact Memory.read_writeList_of_lt _ _ _ _ (heq ▸ hi)

/-! ### SETKEY (R185) -/

/-- Settles O5: a write of one key level, with the event taken. -/
theorem setKeyWritesOneKeyLevel : Obligations.SetKeyWritesOneKeyLevel := by
  unfold Obligations.SetKeyWritesOneKeyLevel
  intro s k level hs
  have hkey : (s.takeEvent.putKey k level).key k = level := by rw [State.key_putKey, if_pos rfl]
  exact ⟨_, step_event hs, hkey, rfl,
    ((onlyChanges_takeEvent s).andThen (onlyChanges_putKey _ k level)).mono fun _ => Or.symm⟩

/-! ### TICK (R203) -/

theorem step_tick (hs : s.host.events.next = .tick) : step s = .next (eventTick s.takeEvent) := step_event hs

/-- BEEP follows ST as just counted (R203). -/
theorem beep_eventTick (s : State) : (eventTick s).beep = decide (s.st.toNat > 1) := by
  change decide ((countDown s.st).toNat > 0) = _
  rw [toNat_countDown]
  exact decide_eq_decide.mpr (by omega)

theorem onlyChanges_step_tick (s : State) : OnlyChanges s (eventTick s.takeEvent)
    (fun p => p = .delay ∨ p = .sound ∨ p = .beep ∨ p = .events) := by
  refine ((onlyChanges_takeEvent s).andThen ((onlyChanges_setDt _ _).andThen ((onlyChanges_setSt _ _).andThen
    (onlyChanges_setBeep _ _)))).mono ?_
  rintro p (hp | hp | hp | hp) <;> simp [hp]

/-- Settles O6: two counts down, BEEP, and the event taken. -/
theorem tickCountsBothTimersAndSetsBeep : Obligations.TickCountsBothTimersAndSetsBeep := by
  unfold Obligations.TickCountsBothTimersAndSetsBeep
  intro s hs
  refine ⟨_, step_tick hs, toNat_countDown s.dt, toNat_countDown s.st, ?_, rfl, onlyChanges_step_tick s⟩
  rw [beep_eventTick, decide_eq_true_iff]
  exact Iff.rfl

/-- Settles O7: by induction on n, the first tick taking one from each timer and leaving the others to the rest of the
run. -/
theorem ticksInARowCountDownToZero : Obligations.TicksInARowCountDownToZero := by
  unfold Obligations.TicksInARowCountDownToZero
  intro n
  induction n with
  | zero => exact fun s _ => ⟨s, rfl, rfl, rfl, rfl, rfl, OnlyChanges.refl s _⟩
  | succ n ih =>
    intro s hs
    rw [EventQueue.first_succ, List.replicate_succ, List.cons.injEq] at hs
    obtain ⟨hnext, hrest⟩ := hs
    obtain ⟨t, hrun, hdt, hst, hbeep, hevents, hframe⟩ := ih (eventTick s.takeEvent) hrest
    have hdtTick : (eventTick s.takeEvent).dt.toNat = s.dt.toNat - 1 := toNat_countDown s.dt
    have hstTick : (eventTick s.takeEvent).st.toNat = s.st.toNat - 1 := toNat_countDown s.st
    have hbeepTick : (eventTick s.takeEvent).beep = decide (s.st.toNat > 1) := beep_eventTick s.takeEvent
    refine ⟨t, (run_succ (step_tick hnext)).trans hrun, by omega, by omega, ?_, hevents,
      (onlyChanges_step_tick s).trans hframe⟩
    rw [hbeep, if_neg (Nat.succ_ne_zero n)]
    split_ifs with hn
    · rw [hbeepTick, hn]
    · rw [hstTick]
      exact decide_eq_decide.mpr (by omega)

/-! ### CYCLE (R90 to R92) -/

/-- Taking a CYCLE off the queue and putting its byte on the rnd input. -/
theorem onlyChanges_takeEvent_presentRnd (s : State) (b : Option Byte) :
    OnlyChanges s (s.takeEvent.presentRnd b) (fun p => p = .events ∨ p = .rndIn) :=
  (onlyChanges_takeEvent s).andThen (onlyChanges_presentRnd _ b)

/-- Settles O8: the cycle's fetch and decode read parts the event does not write. -/
theorem stepRunsTheDecodedInstruction : Obligations.StepRunsTheDecodedInstruction := by
  unfold Obligations.StepRunsTheDecodedInstruction
  intro s i b hfault hpc hdecode hs
  exact (step_cycle hs).trans (cycle_decoded (s := s.takeEvent.presentRnd b) hfault hpc hdecode)

/-- Settles O9: the cycle answers the state it was given. -/
theorem faultedCycleChangesNothing : Obligations.FaultedCycleChangesNothing := by
  unfold Obligations.FaultedCycleChangesNothing
  intro s b hfault hs
  exact ⟨_, (step_cycle hs).trans (cycle_faulted (s := s.takeEvent.presentRnd b) hfault),
    onlyChanges_takeEvent_presentRnd s b⟩

/-- The frame of a cycle that raises a fault before it executes. -/
theorem onlyChanges_takeEvent_presentRnd_raise (s : State) (b : Option Byte) (cause : FaultCause) (opcode addr : Word) :
    OnlyChanges s ((s.takeEvent.presentRnd b).raise cause opcode addr)
      (fun p => p = .fault ∨ p = .events ∨ p = .rndIn) :=
  ((onlyChanges_takeEvent_presentRnd s b).andThen (onlyChanges_raise _ cause opcode addr)).mono fun _ => Or.symm

/-- Settles O10: the fetch bound is the first check that fails. -/
theorem fetchPastTheEndRaisesOutOfBounds : Obligations.FetchPastTheEndRaisesOutOfBounds := by
  unfold Obligations.FetchPastTheEndRaisesOutOfBounds
  intro s b hfault hpc hs
  exact ⟨_, (step_cycle hs).trans (cycle_fetch_fault (s := s.takeEvent.presentRnd b) hfault hpc), rfl,
    onlyChanges_takeEvent_presentRnd_raise s b _ _ _⟩

/-- Settles O11: a word that is no instruction's decodes to none, since a word that decodes is its instruction's. -/
theorem illegalWordRaisesUnimplementedOpcode : Obligations.IllegalWordRaisesUnimplementedOpcode := by
  unfold Obligations.IllegalWordRaisesUnimplementedOpcode
  intro s w b hfault hpc hw hno hs
  subst hw
  have hdecode : decode s.fetchWord = .error (.illegal s.fetchWord) :=
    decode_illegal_of_not_ok fun i hi => hno i (encodeOfDecodeIsTheWord _ i hi)
  exact ⟨_, (step_cycle hs).trans (cycle_illegal (s := s.takeEvent.presentRnd b) hfault hpc hdecode), rfl,
    onlyChanges_takeEvent_presentRnd_raise s b _ _ _⟩

/-- The word 0x1000 + pc is that of the jump to pc. -/
theorem encode_jp_pc {pc : Word} (h : pc.toNat ≤ 0xFFF) : encode (.jp (BitVec.ofNat 12 pc.toNat)) = 0x1000 + pc := by
  refine BitVec.eq_of_toNat_eq ?_
  rw [encode, toNat_encodeA _ _ (by decide), BitVec.toNat_ofNat, BitVec.toNat_add,
    show (0x1000 : Word).toNat = 0x1000 from rfl]
  omega

/-- Settles O28: the fetched word is that of a jump to pc, which writes pc by pc. -/
theorem jpToItselfChangesNothing : Obligations.JpToItselfChangesNothing := by
  unfold Obligations.JpToItselfChangesNothing
  intro s b hfault hpc hw hs
  have hdecode : decode s.fetchWord = .ok (.jp (BitVec.ofNat 12 s.pc.toNat)) := by
    rw [State.fetchWord, hw, ← encode_jp_pc (by omega)]
    exact decodeOfEncodeIsTheInstruction _
  have htarget : zextAddr (BitVec.ofNat 12 s.pc.toNat) = s.pc := by
    refine BitVec.eq_of_toNat_eq ?_
    rw [toNat_zextAddr, BitVec.toNat_ofNat]
    omega
  have hstay : (s.takeEvent.presentRnd b).setPc (zextAddr (BitVec.ofNat 12 s.pc.toNat)) = s.takeEvent.presentRnd b := by
    rw [htarget]; rfl
  refine ⟨_, ?_, onlyChanges_takeEvent_presentRnd s b⟩
  rw [step_cycle hs, cycle_decoded (s := s.takeEvent.presentRnd b) hfault hpc hdecode, exec_jp, hstay]

/-! ### Every event (R223, 93_implementation_defined.md) -/

theorem cycle_next (s : State) : ∃ t, cycle s = .next t := by
  by_cases hfault : s.fault.cause = .noFault
  · rcases Nat.lt_or_ge 0xFFE s.pc.toNat with hpc | hpc
    · exact ⟨_, cycle_fetch_fault hfault hpc⟩
    · cases hd : decode s.fetchWord with
      | ok i => rw [cycle_decoded hfault hpc hd]; exact exec_next i s
      | error e => exact ⟨_, cycle_illegal hfault hpc hd⟩
  · exact ⟨_, cycle_faulted hfault⟩

theorem hostEvent_next (e : HostEvent) (s : State) : ∃ t, hostEvent e s = .next t := by
  cases e
  case cycle b => exact cycle_next _
  all_goals exact ⟨_, rfl⟩

/-- Settles O12: of the five events only CYCLE has more than one way to go, and each of them answers a next state. -/
theorem everyEventHasADefinedResult : Obligations.EveryEventHasADefinedResult := by
  unfold Obligations.EveryEventHasADefinedResult
  exact fun s => hostEvent_next s.host.events.next s.takeEvent

theorem fault_eventLoad (bytes : List Byte) (s : State) : (eventLoad bytes s).fault = s.fault := by
  unfold eventLoad
  split_ifs <;> rfl

/-- Settles O13: a faulted core's CYCLE changes nothing, and of the other events only INIT writes FAULT. -/
theorem recordedFaultStaysUntilInit : Obligations.RecordedFaultStaysUntilInit := by
  unfold Obligations.RecordedFaultStaysUntilInit
  intro s t hfault hinit h
  obtain ⟨he, -⟩ | ⟨bytes, -, rfl⟩ | ⟨k, l, -, rfl⟩ | ⟨b, -, hc⟩ | ⟨-, rfl⟩ := step_cases h
  · exact absurd he hinit
  · exact fault_eventLoad bytes s.takeEvent
  · rfl
  · cases (cycle_faulted (s := s.takeEvent.presentRnd b) hfault).symm.trans hc
    rfl
  · rfl

end Sys2Proof.Machine
end

section
/-!
PROOFS. The sequence of events (spec/00_scope.md section 4): a step takes one event off the queue whatever it is, so a
run takes them in order, recurring ones for ever, and every infinite sequence has its run.
-/

namespace Sys2Proof.Machine

variable {s t : State}

/-! ### One step, one event (R9) -/

/-- Settles O55: what is taken off the queue is the event done, in each of the queue's three forms. -/
theorem stepDoesTheNextEvent : Obligations.StepDoesTheNextEvent := by
  unfold Obligations.StepDoesTheNextEvent
  refine fun s => ⟨fun e others hq => ?_, fun e others hq => ?_, fun stream k hq => ?_⟩
  · have hevents : s.host.events = { pending := e :: others, later := s.host.events.later } := by rw [← hq]
    have hrest : s.host.events.rest = { s.host.events with pending := others } := by rw [hevents, EventQueue.rest_cons]
    rw [step_event (e := e) (by rw [hevents, EventQueue.next_cons]), State.takeEvent, hrest, State.withEvents]
  · rw [step_event (e := e) (by rw [hq, EventQueue.next_repeating]), State.takeEvent, State.withEvents,
      hq, EventQueue.rest_repeating]
  · rw [step_event (e := Config.freeEvent stream k) (by rw [hq, EventQueue.next_free]), State.takeEvent,
      State.withSource, hq, EventQueue.rest_free]

theorem cycle_events (h : cycle s = .next t) : t.host.events = s.host.events := by
  obtain ⟨-, rfl⟩ | ⟨-, -, rfl⟩ | ⟨-, -, -, rfl⟩ | ⟨-, -, i, -, hx⟩ := cycle_cases h
  · rfl
  · rfl
  · rfl
  · exact (exec_framed hx).same (p := .events) (by simp) not_false

/-- No event writes the queue it came from. -/
theorem hostEvent_events {e : HostEvent} (h : hostEvent e s = .next t) : t.host.events = s.host.events := by
  cases e
  case load bytes =>
    simp only [hostEvent, eventLoad] at h
    split_ifs at h <;> cases h <;> rfl
  case cycle b => exact cycle_events (s := s.presentRnd b) h
  all_goals cases h; rfl

/-- A step leaves the queue without the event it did. -/
theorem step_events (h : step s = .next t) : t.host.events = s.host.events.rest := hostEvent_events h

/-! ### Runs -/

theorem EventQueue.rest_drop (q : EventQueue) (n : Nat) : (q.drop n).rest = q.drop (n + 1) := (q.drop_add n 1).symm

theorem exists_run (n : Nat) (s : State) :
    ∃ t, Host.Core.run Sys2Proof.core n s = .next t ∧ t.host.events = s.host.events.drop n := by
  induction n with
  | zero => exact ⟨s, rfl, rfl⟩
  | succ n ih =>
    obtain ⟨t, hrun, hevents⟩ := ih
    obtain ⟨u, hu⟩ := everyEventHasADefinedResult t
    exact ⟨u, (run_last hrun).trans hu, by rw [step_events hu, hevents, EventQueue.rest_drop]⟩

/-- Settles O56: after n steps the queue is without its first n events, and the step after them does the next. -/
theorem runTakesTheEventsInOrder : Obligations.RunTakesTheEventsInOrder := by
  unfold Obligations.RunTakesTheEventsInOrder
  intro n s
  obtain ⟨t, hrun, hevents⟩ := exists_run n s
  exact ⟨t, hrun, hevents, (run_last hrun).trans (step_event (by rw [hevents]))⟩

/-- A queue that is the same again after `k` events is so after every `m` rounds of them. -/
theorem EventQueue.drop_mul {q : EventQueue} {k : Nat} (h : q.drop k = q) (m : Nat) : q.drop (m * k) = q := by
  induction m with
  | zero => rw [Nat.zero_mul]; rfl
  | succ m ih => rw [Nat.succ_mul, EventQueue.drop_add, ih, h]

/-- Settles O57: one round of a repeating source gives its events and the same queue again. -/
theorem recurringEventsRecurForEver : Obligations.RecurringEventsRecurForEver := by
  unfold Obligations.RecurringEventsRecurForEver
  intro m e others s hq
  rw [hq]
  constructor
  · have hround := EventQueue.first_append others (.repeating e others) 0
    rw [EventQueue.first_succ, EventQueue.next_repeating, EventQueue.rest_repeating]
    exact congrArg (e :: ·) (hround.trans (List.append_nil others))
  · obtain ⟨t, hrun, hevents⟩ := exists_run (m * (others.length + 1)) s
    have hround : EventQueue.drop { pending := [], later := .repeating e others } (others.length + 1) =
        { pending := [], later := .repeating e others } := EventQueue.drop_pending others _
    exact ⟨t, hrun, by rw [hevents, hq, EventQueue.drop_mul hround]⟩

/-! ### Every infinite sequence (D2) -/

/-- The state a step answers. -/
def State.stepped (s : State) : State :=
  match step s with
  | .next t => t
  | .fault _ | .refused _ => s

theorem step_eq_stepped (s : State) : step s = .next s.stepped := by
  obtain ⟨t, ht⟩ := everyEventHasADefinedResult s
  rw [State.stepped, ht]

/-- The states of the run of the events `e 0`, `e 1`, … from `s`, each presented when its turn comes. -/
def statesOf (e : Nat → HostEvent) (s : State) : Nat → State
  | 0 => s.withEvents []
  | n + 1 => ((statesOf e s n).withEvents [e n]).stepped

theorem step_statesOf (e : Nat → HostEvent) (s : State) (n : Nat) :
    step ((statesOf e s n).withEvents [e n]) = .next (statesOf e s (n + 1)) := step_eq_stepped _

/-- Between its events such a run has nothing lined up. -/
theorem statesOf_events (e : Nat → HostEvent) (s : State) (n : Nat) :
    (statesOf e s n).host.events = { pending := [], later := s.host.events.later } := by
  induction n with
  | zero => rfl
  | succ n ih =>
    have hrest : (statesOf e s (n + 1)).host.events = { pending := [], later := (statesOf e s n).host.events.later } :=
      step_events (step_statesOf e s n)
    rw [hrest, ih]

theorem statesOf_withEvents (e : Nat → HostEvent) (s : State) (n : Nat) (l : List HostEvent) :
    (statesOf e s n).withEvents l = (statesOf e s n).setEvents { pending := l, later := s.host.events.later } := by
  rw [State.withEvents, statesOf_events]

theorem statesOf_withEvents_nil (e : Nat → HostEvent) (s : State) (n : Nat) :
    (statesOf e s n).withEvents [] = statesOf e s n := by
  rw [statesOf_withEvents, ← statesOf_events e s n]
  rfl

/-- The run's events do the same whatever is lined up behind them. -/
theorem hostEvent_statesOf (e : Nat → HostEvent) (s : State) (n : Nat) (l : List HostEvent) :
    hostEvent (e n) ((statesOf e s n).withEvents l) = .next ((statesOf e s (n + 1)).withEvents l) := by
  have halone : hostEvent (e n) ((statesOf e s n).withEvents []) = .next (statesOf e s (n + 1)) := step_statesOf e s n
  rw [statesOf_withEvents_nil] at halone
  rw [statesOf_withEvents, statesOf_withEvents]
  exact hostEvent_setEvents (e n) _ halone

/-- The first n events lined up beforehand, with any others behind them, lead to the same state. -/
theorem run_lined_up (e : Nat → HostEvent) (s : State) (n : Nat) (l : List HostEvent) :
    Host.Core.run Sys2Proof.core n (s.withEvents ((List.range n).map e ++ l)) =
      .next ((statesOf e s n).withEvents l) := by
  induction n generalizing l with
  | zero => rfl
  | succ n ih =>
    rw [List.range_succ, List.map_append, List.append_assoc]
    exact (run_last (ih (e n :: l))).trans (hostEvent_statesOf e s n l)

/-- Settles O58: the states are those of `statesOf`, each by definition the step's answer, and lined up they are the
same. -/
theorem everyEventSequenceHasItsRun : Obligations.EveryEventSequenceHasItsRun := by
  unfold Obligations.EveryEventSequenceHasItsRun
  refine fun e s => ⟨statesOf e s, rfl, step_statesOf e s, fun n => ?_⟩
  have hrun := run_lined_up e s n []
  rwa [List.append_nil, statesOf_withEvents_nil] at hrun

end Sys2Proof.Machine
end
